-- ==== Sys2Proof/Word.lean ====
section
/-! DEFINITION. The word types of spec R9 to R11 (00_scope.md): bytes, 16-bit and 32-bit values, and finite byte
sequences. A bit vector stands for what the spec reads as bits; counts and indices are naturals. -/

namespace Sys2Proof

/-- `u8`: an unsigned value of 8 bits (R10). -/
abbrev Byte := BitVec 8

/-- `u16` (R10). -/
abbrev U16 := BitVec 16

/-- `u32` (R10). -/
abbrev U32 := BitVec 32

/-- `Bytes`: a finite list of bytes (R11). -/
abbrev Bytes := List Byte

end Sys2Proof
end

