-- ==== Sys2Proof/Config.lean ====
section
/-! DEFINITION. The fixed constants of R7, the two configuration parameters of R8 (00_scope.md), and the free values
for the bytes the spec leaves unspecified (R33, R35 of 10_state.md; assumption log 4). -/

namespace Sys2Proof.Config

/-- `MAX_CELLS` (R7). -/
def maxCells : Nat := 8

/-- `MAX_NTC` (R7). -/
def maxNtc : Nat := 4

/-- `BASIC_FIXED_LEN` (R7, R63). -/
def basicFixedLen : Nat := 23

/-- `START`, the start marker (R7, R56). -/
def startMarker : Byte := 0xDD

/-- `END`, the end marker (R7, R57). -/
def endMarker : Byte := 0x77

/-- `RESP_BASIC` (R7, R60). -/
def respBasic : Byte := 0x03

/-- `RESP_CELLS` (R7, R60). -/
def respCells : Byte := 0x04

/-- The configuration inputs `TIMEOUT` and `MAX_PAYLOAD` (R8, R25). -/
structure Params where
  timeout : Nat
  maxPayload : Nat
  deriving DecidableEq, Repr

/-- The legal ranges of R8: `TIMEOUT` from 1 to 2^16 − 1, `MAX_PAYLOAD` from 0 to 255. -/
def Params.legal (p : Params) : Bool :=
  decide (1 ≤ p.timeout) && decide (p.timeout ≤ 65535) && decide (p.maxPayload ≤ 255)

/-- The configuration of `State.reset`. `MAX_PAYLOAD` has R8's default 255. `TIMEOUT` has no default in the spec:
DESIGN CHOICE 3, the value of the spec's own examples (assumption log 5, unsafe). -/
def resetParams : Params := { timeout := 3, maxPayload := 255 }

/-- FREE VALUE: what byte `i` of `buf` holds while nothing has written it (R33, R35; assumption log 4). -/
opaque bufUnwritten : Nat → Byte

/-- FREE VALUE: what byte `i` of `fo_payload` holds while nothing has written it (R33, R35; assumption log 4). -/
opaque foPayloadUnwritten : Nat → Byte

end Sys2Proof.Config
end

