-- ==== Sys2Proof/Syntax.lean ====
section
/-! DEFINITION. The operations of spec/opcode_table.json, one constructor of `Instr` a row (R6), with the operands the
spec gives each; and the records some operands are (R80, R84, R97). Meanings stand in Machine/ alone. -/

namespace Sys2Proof

/-- `ProtectionFlags` (R80): thirteen named flags and the preserved reserved bits 15:13. -/
structure ProtectionFlags where
  cellOv : Bool
  cellUv : Bool
  packOv : Bool
  packUv : Bool
  chgOt : Bool
  chgUt : Bool
  dsgOt : Bool
  dsgUt : Bool
  chgOc : Bool
  dsgOc : Bool
  shortCircuit : Bool
  icError : Bool
  fetLock : Bool
  reserved : BitVec 3
  deriving DecidableEq, Repr

/-- `FetStatus` (R84): two named flags and the preserved reserved bits 7:2. -/
structure FetStatus where
  chgEn : Bool
  dsgEn : Bool
  reserved : BitVec 6
  deriving DecidableEq, Repr

/-- `ValidatedFrame` (R97). Its invariant `len(payload) = len ≤ MAX_PAYLOAD` is `isValidatedFrame` (Codec.lean), which
needs the configuration; its first half is `ValidatedFrame.wf` (WellFormed.lean). -/
structure ValidatedFrame where
  code : Byte
  len : Byte
  payload : Bytes
  deriving DecidableEq, Repr

/-- One constructor per row of spec/opcode_table.json, in the table's order. -/
inductive Instr where
  /-- CYC_RESET (R107). -/
  | cycReset
  /-- CYC_IDLE (R108). -/
  | cycIdle
  /-- CYC_TICK (R109). -/
  | cycTick
  /-- CYC_BYTE (R110): the tick bit `CIW[9]` and the byte presented. -/
  | cycByte (tick : Bool) (b : Byte)
  /-- TIMEOUT_ABANDON (R111), step 3 of the cycle step (R106). -/
  | timeoutAbandon
  /-- SEEK_START (R113): the byte is `START`. -/
  | seekStart
  /-- SEEK_JUNK (R114). -/
  | seekJunk (b : Byte)
  /-- HDR_CODE (R115). -/
  | hdrCode (b : Byte)
  /-- HDR_LEN_BAD (R117). -/
  | hdrLenBad (b : Byte)
  /-- HDR_LEN_OK (R116). -/
  | hdrLenOk (b : Byte)
  /-- PAY_BYTE (R118). -/
  | payByte (b : Byte)
  /-- PAY_LAST (R119). -/
  | payLast (b : Byte)
  /-- CK_HI (R120). -/
  | ckHi (b : Byte)
  /-- CK_LO (R121). -/
  | ckLo (b : Byte)
  /-- END_OK (R122): the byte is `END`, the checksum good. -/
  | endOk
  /-- END_BADSUM (R123): the byte is `END`, the checksum bad. -/
  | endBadsum
  /-- END_BADMARK (R124). -/
  | endBadmark (b : Byte)
  /-- DECODE_PROT (R81). -/
  | decodeProt (raw : U16)
  /-- ENCODE_PROT (R82). -/
  | encodeProt (f : ProtectionFlags)
  /-- DECODE_FET (R85). -/
  | decodeFet (raw : Byte)
  /-- ENCODE_FET (R86). -/
  | encodeFet (f : FetStatus)
  /-- DECODE_BASIC (R89). -/
  | decodeBasic (p : Bytes)
  /-- DECODE_CELLS (R93). -/
  | decodeCells (p : Bytes) (count : Byte)
  /-- UNPACK_DATE (R94). -/
  | unpackDate (d : U16)
  /-- CHECKSUM (R95). -/
  | checksum (r : Bytes)
  /-- VALIDATE (R99). -/
  | validate (s : Bytes)
  /-- ENCODE_COMMAND (R101). -/
  | encodeCommand (c : Byte) (p : Bytes)
  /-- SLICE_PAYLOAD (R103). -/
  | slicePayload (f : ValidatedFrame)
  /-- PARSE_HEADER (R98). -/
  | parseHeader (b0 b1 b2 : Byte)
  deriving DecidableEq, Repr

/-- The four selector formats of the table's `format` column (R70, R71, R72, R111). -/
inductive Format where
  | ciw | srCondition | tsw | fop
  deriving DecidableEq, Repr

/-- The `format` column of the table. -/
def Instr.format : Instr → Format
  | .cycReset => .ciw
  | .cycIdle => .ciw
  | .cycTick => .ciw
  | .cycByte _ _ => .ciw
  | .timeoutAbandon => .srCondition
  | .seekStart => .tsw
  | .seekJunk _ => .tsw
  | .hdrCode _ => .tsw
  | .hdrLenBad _ => .tsw
  | .hdrLenOk _ => .tsw
  | .payByte _ => .tsw
  | .payLast _ => .tsw
  | .ckHi _ => .tsw
  | .ckLo _ => .tsw
  | .endOk => .tsw
  | .endBadsum => .tsw
  | .endBadmark _ => .tsw
  | .decodeProt _ => .fop
  | .encodeProt _ => .fop
  | .decodeFet _ => .fop
  | .encodeFet _ => .fop
  | .decodeBasic _ => .fop
  | .decodeCells _ _ => .fop
  | .unpackDate _ => .fop
  | .checksum _ => .fop
  | .validate _ => .fop
  | .encodeCommand _ _ => .fop
  | .slicePayload _ => .fop
  | .parseHeader _ _ _ => .fop

/-- The operand ports of the function units: "FOP and operands" (R161). Each function reads the ports its operands
name (Decode.lean). DESIGN CHOICE: typed ports, no bit layout (assumption log 11). -/
structure FuOperands where
  word : U16
  byte0 : Byte
  byte1 : Byte
  byte2 : Byte
  prot : ProtectionFlags
  fet : FetStatus
  bytes : Bytes
  frame : ValidatedFrame
  deriving DecidableEq, Repr

/-- The condition wires beside a TSW (R112): the legal length limit, and whether `(sum + ck) mod 65536 = 0`. -/
structure TswCond where
  maxPayload : Nat
  sumGood : Bool
  deriving DecidableEq, Repr

/-- A selector word with what stands beside it, one constructor per format of the table. -/
inductive Selector where
  /-- The cycle input word (R70). -/
  | ciw (w : BitVec 11)
  /-- R111: no pattern of its own, only `rst = 0` and the condition `phase ≠ SEEK and timer ≥ TIMEOUT`. -/
  | srCondition (w : BitVec 11) (elapsed : Bool)
  /-- The transition select word (R71) and its condition wires. -/
  | tsw (w : BitVec 12) (c : TswCond)
  /-- The function-unit operation select (R72) and the operand ports. -/
  | fop (w : BitVec 4) (o : FuOperands)
  deriving DecidableEq, Repr

/-- The format of a selector. -/
def Selector.format : Selector → Format
  | .ciw _ => .ciw
  | .srCondition _ _ => .srCondition
  | .tsw _ _ => .tsw
  | .fop _ _ => .fop

end Sys2Proof
end

