-- ==== Sys2Proof/WellFormed.lean ====
section
/-! DEFINITION. Which terms of `Instr` are operations of the spec. A transition whose byte can never select it is
ill-formed, and so is a slice of a record that is no `ValidatedFrame`. Every other function is total on its operands
(R13). -/

namespace Sys2Proof

/-- The invariant of `ValidatedFrame` that its two fields carry (R97): `len(payload) = len`. -/
def ValidatedFrame.wf (f : ValidatedFrame) : Bool := decide (f.payload.length = f.len.toNat)

/-- The operand domains the rules of each operation state. -/
def Instr.wf : Instr → Bool
  | .cycReset => true
  | .cycIdle => true
  | .cycTick => true
  | .cycByte _ _ => true
  | .timeoutAbandon => true
  | .seekStart => true
  | .seekJunk b => decide (b ≠ Config.startMarker)
  | .hdrCode _ => true
  | .hdrLenBad b => decide (b ≠ 0)
  | .hdrLenOk _ => true
  | .payByte _ => true
  | .payLast _ => true
  | .ckHi _ => true
  | .ckLo _ => true
  | .endOk => true
  | .endBadsum => true
  | .endBadmark b => decide (b ≠ Config.endMarker)
  | .decodeProt _ => true
  | .encodeProt _ => true
  | .decodeFet _ => true
  | .encodeFet _ => true
  | .decodeBasic _ => true
  | .decodeCells _ _ => true
  | .unpackDate _ => true
  | .checksum _ => true
  | .validate _ => true
  | .encodeCommand _ _ => true
  | .slicePayload f => f.wf
  | .parseHeader _ _ _ => true

end Sys2Proof
end

