-- ==== Sys2Proof/Decode.lean ====
section
/-! DEFINITION. From selector words to operations and back (R70 to R72, R111, R112; opcode_table.json). `decode` is
total and rejects by name; `encode` gives the selector the spec's encoding tables name for an operation. -/

namespace Sys2Proof

/-- Why a selector selects nothing. -/
inductive Reject where
  /-- FOP 0x0 and 0xD to 0xF select nothing (R72, R76). -/
  | reservedFop
  /-- A TSW that matches no row of R112: one of those that cannot occur (R71). -/
  | noTransition
  /-- The condition of R111 does not hold, or the cycle is a reset. -/
  | conditionFalse
  /-- A function operand outside the domain its rule states (`Instr.wf`). -/
  | operandOutsideDomain
  deriving DecidableEq, Repr

/-! ### The cycle input word, R70: `CIW = {rst, tick, in_valid, in_byte[7:0]}` -/

def ciwRst (w : BitVec 11) : Bool := w.getLsbD 10

def ciwTick (w : BitVec 11) : Bool := w.getLsbD 9

def ciwValid (w : BitVec 11) : Bool := w.getLsbD 8

def ciwByte (w : BitVec 11) : Byte := w.extractLsb' 0 8

/-- `{rst, tick, in_valid, in_byte}` (R70). -/
def packCiw (rst tick valid : Bool) (b : Byte) : BitVec 11 :=
  (BitVec.ofBool rst ++ BitVec.ofBool tick ++ BitVec.ofBool valid ++ b).cast rfl

/-- The cycle operation a CIW selects (R70); every CIW selects one (R143). -/
def decodeCiw (w : BitVec 11) : Instr :=
  if ciwRst w then .cycReset
  else if ciwValid w then .cycByte (ciwTick w) (ciwByte w)
  else if ciwTick w then .cycTick
  else .cycIdle

/-! ### The transition select word, R71: `TSW = {phase[1:0], sub[1:0], byte[7:0]}` -/

/-- `{phase, sub, byte}` (R71). -/
def packTsw (phase sub : BitVec 2) (b : Byte) : BitVec 12 := (phase ++ sub ++ b).cast rfl

def tswPhase (w : BitVec 12) : BitVec 2 := w.extractLsb' 10 2

def tswSub (w : BitVec 12) : BitVec 2 := w.extractLsb' 8 2

def tswByte (w : BitVec 12) : Byte := w.extractLsb' 0 8

/-- Whether a word matches a row's `match` under its `mask`. -/
def tswHits (w pattern mask : BitVec 12) : Bool := w &&& mask == pattern

/-- The transition a TSW selects: the first row of R112 that matches, in the table's order. -/
def decodeTsw (w : BitVec 12) (c : TswCond) : Except Reject Instr :=
  if tswHits w 0x0DD 0xCFF then .ok .seekStart
  else if tswHits w 0x000 0xC00 then .ok (.seekJunk (tswByte w))
  else if tswHits w 0x400 0xF00 then .ok (.hdrCode (tswByte w))
  else if tswHits w 0x500 0xF00 && decide (c.maxPayload < (tswByte w).toNat) then .ok (.hdrLenBad (tswByte w))
  else if tswHits w 0x500 0xF00 && decide ((tswByte w).toNat ≤ c.maxPayload) then .ok (.hdrLenOk (tswByte w))
  else if tswHits w 0x800 0xF00 then .ok (.payByte (tswByte w))
  else if tswHits w 0x900 0xF00 then .ok (.payLast (tswByte w))
  else if tswHits w 0xC00 0xF00 then .ok (.ckHi (tswByte w))
  else if tswHits w 0xD00 0xF00 then .ok (.ckLo (tswByte w))
  else if tswHits w 0xE77 0xFFF && c.sumGood then .ok .endOk
  else if tswHits w 0xE77 0xFFF && !c.sumGood then .ok .endBadsum
  else if tswHits w 0xE00 0xF00 then .ok (.endBadmark (tswByte w))
  else .error .noTransition

/-! ### The function-unit operation select, R72 -/

/-- Every port zero or empty: the operand ports of a bare FOP word. -/
def FuOperands.zero : FuOperands where
  word := 0
  byte0 := 0
  byte1 := 0
  byte2 := 0
  prot := ⟨false, false, false, false, false, false, false, false, false, false, false, false, false, 0⟩
  fet := ⟨false, false, 0⟩
  bytes := []
  frame := ⟨0, 0, []⟩

/-- Accept an operation whose operands lie in the domain its rule states. -/
def acceptWf (i : Instr) : Except Reject Instr := if i.wf then .ok i else .error .operandOutsideDomain

/-- The function an FOP selects (R72), with its operands from the ports. -/
def decodeFop (w : BitVec 4) (o : FuOperands) : Except Reject Instr :=
  match w.toNat with
  | 0x1 => acceptWf (.decodeProt o.word)
  | 0x2 => acceptWf (.encodeProt o.prot)
  | 0x3 => acceptWf (.decodeFet o.byte0)
  | 0x4 => acceptWf (.encodeFet o.fet)
  | 0x5 => acceptWf (.decodeBasic o.bytes)
  | 0x6 => acceptWf (.decodeCells o.bytes o.byte0)
  | 0x7 => acceptWf (.unpackDate o.word)
  | 0x8 => acceptWf (.checksum o.bytes)
  | 0x9 => acceptWf (.validate o.bytes)
  | 0xA => acceptWf (.encodeCommand o.byte0 o.bytes)
  | 0xB => acceptWf (.slicePayload o.frame)
  | 0xC => acceptWf (.parseHeader o.byte0 o.byte1 o.byte2)
  | _ => .error .reservedFop

/-! ### Any selector -/

/-- The operation a selector selects, or why it selects none. -/
def decode : Selector → Except Reject Instr
  | .ciw w => .ok (decodeCiw w)
  | .srCondition w elapsed => if !ciwRst w && elapsed then .ok .timeoutAbandon else .error .conditionFalse
  | .tsw w c => decodeTsw w c
  | .fop w o => decodeFop w o

/-- The condition wires of a transition that has no condition in R112. -/
def TswCond.any : TswCond := { maxPayload := 255, sumGood := true }

/-- The selector of an operation, from the same tables (R70, R71, R72, R111, R112). -/
def encode : Instr → Selector
  | .cycReset => .ciw (packCiw true false false 0)
  | .cycIdle => .ciw (packCiw false false false 0)
  | .cycTick => .ciw (packCiw false true false 0)
  | .cycByte t b => .ciw (packCiw false t true b)
  | .timeoutAbandon => .srCondition (packCiw false false false 0) true
  | .seekStart => .tsw (packTsw 0 0 Config.startMarker) .any
  | .seekJunk b => .tsw (packTsw 0 0 b) .any
  | .hdrCode b => .tsw (packTsw 1 0 b) .any
  | .hdrLenBad b => .tsw (packTsw 1 1 b) { maxPayload := b.toNat - 1, sumGood := true }
  | .hdrLenOk b => .tsw (packTsw 1 1 b) .any
  | .payByte b => .tsw (packTsw 2 0 b) .any
  | .payLast b => .tsw (packTsw 2 1 b) .any
  | .ckHi b => .tsw (packTsw 3 0 b) .any
  | .ckLo b => .tsw (packTsw 3 1 b) .any
  | .endOk => .tsw (packTsw 3 2 Config.endMarker) .any
  | .endBadsum => .tsw (packTsw 3 2 Config.endMarker) { maxPayload := 255, sumGood := false }
  | .endBadmark b => .tsw (packTsw 3 2 b) .any
  | .decodeProt raw => .fop 0x1 { FuOperands.zero with word := raw }
  | .encodeProt f => .fop 0x2 { FuOperands.zero with prot := f }
  | .decodeFet raw => .fop 0x3 { FuOperands.zero with byte0 := raw }
  | .encodeFet f => .fop 0x4 { FuOperands.zero with fet := f }
  | .decodeBasic p => .fop 0x5 { FuOperands.zero with bytes := p }
  | .decodeCells p count => .fop 0x6 { FuOperands.zero with bytes := p, byte0 := count }
  | .unpackDate d => .fop 0x7 { FuOperands.zero with word := d }
  | .checksum r => .fop 0x8 { FuOperands.zero with bytes := r }
  | .validate s => .fop 0x9 { FuOperands.zero with bytes := s }
  | .encodeCommand c p => .fop 0xA { FuOperands.zero with byte0 := c, bytes := p }
  | .slicePayload f => .fop 0xB { FuOperands.zero with frame := f }
  | .parseHeader b0 b1 b2 => .fop 0xC { FuOperands.zero with byte0 := b0, byte1 := b1, byte2 := b2 }

/-! ### The table's words as bare numbers (assumption log 12) -/

/-- The words of the program notation of R79: RST, IDLE, TICK, BYTE bb, BYTET bb. -/
def isNotationCiw (w : Nat) : Bool :=
  w == 0x400 || w == 0x000 || w == 0x200 || w / 256 == 1 || w / 256 == 3

/-- Whether a 12-bit number is a TSW that can occur (R71). -/
def tswCanOccur (w : Nat) : Bool :=
  match w / 1024 with
  | 0 => w / 256 % 4 == 0
  | 1 => decide (w / 256 % 4 < 2)
  | 2 => decide (w / 256 % 4 < 2)
  | 3 => decide (w / 256 % 4 < 3)
  | _ => false

/-- The selector a number of `nbits` bits stands for. At the exact widths 4, 11 and 12 of R70 to R72 that is the FOP,
the CIW and the TSW. A word of 16 bits may be either of the last two, which share numbers: DESIGN CHOICE, a word
of R79's notation is the CIW, any other TSW that can occur is the TSW, and the rest is the CIW where 11 bits hold it
(assumption log 12). The operand ports are zero; the conditions are those of the default `MAX_PAYLOAD` and a good sum. -/
def tableSelector (nbits w : Nat) : Option Selector :=
  if nbits ≤ 8 then (if w < 16 then some (.fop (BitVec.ofNat 4 w) FuOperands.zero) else none)
  else if nbits ≤ 11 then (if w < 2048 then some (.ciw (BitVec.ofNat 11 w)) else none)
  else if nbits = 12 then (if w < 4096 then some (.tsw (BitVec.ofNat 12 w) .any) else none)
  else if isNotationCiw w then some (.ciw (BitVec.ofNat 11 w))
  else if tswCanOccur w then some (.tsw (BitVec.ofNat 12 w) .any)
  else if w < 2048 then some (.ciw (BitVec.ofNat 11 w))
  else none

/-- The operation the decoder reads from the number `w` of `nbits` bits. -/
def decodeTableWord (nbits w : Nat) : Option Instr :=
  match tableSelector nbits w with
  | some sel => (decode sel).toOption
  | none => none

end Sys2Proof
end

