-- ==== Sys2Proof/Machine/State.lean ====
section
/-! DEFINITION. The machine's state (R15 of 10_state.md, with the registered event outputs of R28 and the control
registers of R25), the types of its outputs and results, why it stops, and its reset values (R35). All plain data. -/

namespace Sys2Proof.Machine

/-- The four states of the Stream Reassembler (R16). -/
inductive Phase where
  | seek | hdr | pay | cke
  deriving DecidableEq, Repr

/-- FrameError (R134). -/
inductive FrameError where
  | badStart | badEnd | checksumMismatch | lengthMismatch | timeout
  deriving DecidableEq, Repr

/-- DecodeError (R135). -/
inductive DecodeError where
  | tooShort | invalidCount
  deriving DecidableEq, Repr

/-- The two results of a pure function that can fail: `Ok(v)` and `Err(e)` (R12). -/
inductive Result (ε α : Type) where
  | ok (v : α)
  | err (e : ε)
  deriving DecidableEq, Repr

/-- The event of a cycle: exactly one of `NONE`, `FRAME` and `ERR(e)` (R30). -/
inductive Event where
  | none
  | frame
  | err (e : FrameError)
  deriving DecidableEq, Repr

/-- `BasicInfo` (R88). `temps` has exactly `ntcCnt` elements in every record a decoder gives (R90). -/
structure BasicInfo where
  voltage : U16
  current : Int
  remCapacity : U16
  typCapacity : U16
  cycles : U16
  prodDate : U16
  balanceStatus : U32
  prot : ProtectionFlags
  softwareVersion : Byte
  remCapPct : Byte
  fet : FetStatus
  cellCnt : Nat
  ntcCnt : Nat
  temps : List U16
  deriving DecidableEq, Repr

/-- The kind the slicer gives a frame (R103). -/
inductive SliceKind where
  | basic | cells | other
  deriving DecidableEq, Repr

/-- The result of a function call, one constructor per function of R72. -/
inductive FuResult where
  | decodeProt (f : ProtectionFlags)
  | encodeProt (raw : U16)
  | decodeFet (f : FetStatus)
  | encodeFet (raw : Byte)
  | decodeBasic (r : Result DecodeError BasicInfo)
  | decodeCells (r : Result DecodeError (List U16))
  | unpackDate (year month day : Nat)
  | checksum (ck : U16)
  | validate (r : Result FrameError ValidatedFrame)
  | encodeCommand (s : Bytes)
  | slicePayload (kind : SliceKind) (payload : Bytes)
  | parseHeader (r : Result FrameError (Byte × Byte))
  deriving DecidableEq, Repr

/-- What the host drives in one clock cycle (R25, R26): the cycle input word, the two addresses of the combinational
outputs, and the configuration inputs. -/
structure CyclePorts where
  ciw : BitVec 11
  foRdAddr : Byte
  cellCntIn : Byte
  params : Config.Params
  deriving DecidableEq, Repr

/-- One move of the host (R161): a clock cycle, or a call of a pure function. -/
inductive HostMove where
  | cycle (ports : CyclePorts)
  | call (fop : BitVec 4) (ops : FuOperands)
  deriving DecidableEq, Repr

/-- The bytes of one of the two internal arrays (R36) that have been written, as (index, byte) cells with indices
strictly rising. An index not listed holds NO VALUE: nothing has written it (assumption log 4). -/
abbrev Memory := List Host.Cell

/-- The state of one FCB. The registers of R15 first, then the event outputs, the control registers, the wire of R106,
and the model's own two fields. -/
structure State where
  /-- R16 -/
  phase : Phase
  /-- R17 -/
  idx : BitVec 8
  /-- R18 -/
  code : BitVec 8
  /-- R18 -/
  len : BitVec 8
  /-- R19 -/
  buf : Memory
  /-- R20 -/
  sum : BitVec 16
  /-- R21 -/
  ck : BitVec 16
  /-- R22 -/
  timer : Nat
  /-- R23 -/
  quiet : Bool
  /-- R24 -/
  foValid : Bool
  /-- R24 -/
  foCode : BitVec 8
  /-- R24 -/
  foLen : BitVec 8
  /-- R24 -/
  foPayload : Memory
  /-- The registered outputs `ev_kind` and `ev_err` (R28, R30); inside a cycle the wire `ev` of R106. -/
  event : Event
  /-- The per-cycle wire `entered` of R106; false between cycles (assumption log 10). -/
  entered : Bool
  /-- The control registers `TIMEOUT` and `MAX_PAYLOAD` (R25). -/
  cfg : Config.Params
  /-- MODEL'S OWN: the result of the last function call, as the host gets it back (R161; assumption log 11). -/
  fuResult : Option FuResult
  /-- MODEL'S OWN: the host's moves not yet taken (R150, R162; assumption log 2). -/
  moves : List HostMove
  deriving DecidableEq, Repr

/-- Why the machine stops with a fault. No run of the spec reaches one: "No behaviour of the FCB is `fault`". -/
inductive Fault where
  /-- Raised by a byte cycle whose TSW matches no row of R112, which R71 says cannot occur. Safe: no next state. -/
  | impossibleTsw
  /-- Raised by an access to `buf` or `fo_payload` at an index of `MAX_PAYLOAD` or more: R36 says there is none.
  Safe: no next state. -/
  | noBufferByte
  deriving DecidableEq, Repr

/-- Why the machine refuses. Every reason but the last two is a refusal of the spec's own (R143). -/
inductive Refusal where
  /-- Raised by `exec` for an operation without a meaning yet. Safe. -/
  | notModelled (mnemonic : String)
  /-- Raised by a call with FOP 0x0 or 0xD to 0xF (R72, R76). Safe. -/
  | reservedSelector
  /-- Raised by a configuration outside the ranges of R8, by every operation that reads it. Safe. -/
  | illegalConfiguration
  /-- Raised by a configuration that changes in a cycle without reset (R151). Safe. -/
  | configurationChanged
  /-- Raised by ENCODE_COMMAND of a payload longer than `MAX_PAYLOAD` (R101). Safe. -/
  | payloadTooLong
  /-- Raised by `balancing` for an index of 8 or more (R91). Safe. -/
  | reservedBalanceBit
  /-- Raised by a call with an operand outside its domain: SLICE_PAYLOAD of a record that is no `ValidatedFrame` (R97;
  assumption log 14). Safe. -/
  | operandOutsideDomain
  /-- Raised by a transition, or by TIMEOUT_ABANDON, in a state that does not select it (assumption log 1). Safe. -/
  | notSelected
  deriving DecidableEq, Repr

/-- The machine right after a cycle with `rst = 1` (R35), with the reset configuration of assumption log 5. -/
def State.reset : State where
  phase := .seek
  idx := 0
  code := 0
  len := 0
  buf := []
  sum := 0
  ck := 0
  timer := 0
  quiet := false
  foValid := false
  foCode := 0
  foLen := 0
  foPayload := []
  event := .none
  entered := false
  cfg := Config.resetParams
  fuResult := none
  moves := []

end Sys2Proof.Machine
end

