-- ==== Sys2Proof/Machine/Ops.lean ====
section
/-! DEFINITION. The named operations on the state: the two byte arrays (R36, R38), the one response to a FrameError
(R141; the FCB's only form of taking an exception: it has no traps, R133, and no return from an error, R142), the
ends of a cycle (R106) and the result port of the functions (R161). -/

namespace Sys2Proof.Machine

/-- The answer of an operation: the next state, a fault or a refusal. -/
abbrev StepResult := Host.Outcome State Fault Refusal

/-- Apply a state change to the next state of an answer; a stop stays as it is. -/
def thenNext (f : State → State) : StepResult → StepResult
  | .next s => .next (f s)
  | .fault r => .fault r
  | .refused r => .refused r

/-! ### The byte arrays -/

/-- The byte written at an index; NO VALUE at an index nothing has written (assumption log 4). -/
def Memory.read? : Memory → Nat → Option Byte
  | [], _ => none
  | c :: cs, i => if c.1 = i then some c.2 else Memory.read? cs i

/-- Set the byte at an index, keeping the indices strictly rising. -/
def Memory.write : Memory → Nat → Byte → Memory
  | [], i, v => [(i, v)]
  | c :: cs, i, v =>
    if i < c.1 then (i, v) :: c :: cs
    else if i = c.1 then (i, v) :: cs
    else c :: Memory.write cs i v

/-- The canonical form: indices strictly rising, each one that an array of at most 255 bytes has (R8, R36). -/
abbrev Memory.wf (m : Memory) : Prop := m.Pairwise (fun c d => c.1 < d.1) ∧ ∀ c ∈ m, c.1 < 255

/-- `MemRead(buf, i)` (R38); any value where nothing was written (R33). -/
def bufRead (s : State) (i : Nat) : Byte := (s.buf.read? i).getD (Config.bufUnwritten i)

/-- Byte `i` of `fo_payload`; any value where nothing was written (R33). -/
def foPayloadRead (s : State) (i : Nat) : Byte := (s.foPayload.read? i).getD (Config.foPayloadUnwritten i)

/-- `for i in 0 .. n-1: m[i] <- f(i)`. -/
def fillFrom (f : Nat → Byte) : Nat → Memory → Memory
  | 0, m => m
  | n + 1, m => (fillFrom f n m).write n (f n)

/-- The payload of the emitted frame, `fo_payload[0 .. fo_len)` (R104). -/
def foBytes (s : State) : Bytes := (List.range s.foLen.toNat).map (foPayloadRead s)

/-! ### Errors and events -/

/-- `raise FrameError(e)` inside a frame with the fixed response of R141: the event, `quiet`, back to `SEEK`. Nothing
else changes; the byte, where a rule says so, is re-examined afterwards. -/
def raiseFrameError (e : FrameError) (s : State) : State :=
  { s with event := .err e, quiet := true, phase := .seek, idx := 0 }

/-- Give a function's result back to the host (R161); FC and BM write no register (R13). -/
def answer (r : FuResult) (s : State) : StepResult := .next { s with fuResult := some r }

/-! ### Configuration -/

/-- An operation that reads the configuration has no meaning in an illegal one (R8; assumption log 6). -/
def withLegalConfig (s : State) (r : StepResult) : StepResult :=
  if s.cfg.legal then r else .refused .illegalConfiguration

/-! ### The ends of a cycle -/

/-- Step 2 of R106: `ev <- NONE; entered <- 0`. -/
def beginCycle (s : State) : State := { s with event := .none, entered := false }

/-- The timer of step 5 (R125), from the phase after step 4, `entered` and the tick. -/
def nextTimer (tick : Bool) (s : State) : Nat :=
  if s.phase = .seek ∨ s.entered = true then 0
  else if tick = true then min (s.timer + 1) s.cfg.timeout
  else s.timer

/-- Steps 5 and 6 of R106: the timer, and the end of the per-cycle wire. -/
def endCycle (tick : Bool) (s : State) : State := { s with timer := nextTimer tick s, entered := false }

end Sys2Proof.Machine
end

