-- ==== Sys2Proof/Machine/Operands.lean ====
section
/-! DEFINITION. Operand forms: bytes and multi-byte fields of a byte sequence (R11, R40 to R42, R78), the sum of a
region (R20, R95), the halves of the checksum register (R21) and the bits that select a transition (R16, R71). -/

namespace Sys2Proof.Machine

/-- `s[i]` (R11). Every rule reads it at an index it has checked; the 0 beyond the end is read by none. -/
def byteAt (s : Bytes) (i : Nat) : Byte := s.getD i 0

/-- `s[i..j)` (R11). -/
def sliceBytes (s : Bytes) (i j : Nat) : Bytes := (s.take j).drop i

/-- `be16(s, i)`: two bytes, the most significant first (R11, R40). -/
def be16 (s : Bytes) (i : Nat) : U16 := (byteAt s i ++ byteAt s (i + 1)).cast rfl

/-- `be32(s, i)` (R11, R42). -/
def be32 (s : Bytes) (i : Nat) : U32 := (be16 s i ++ be16 s (i + 2)).cast rfl

/-- `sext_16` (R11): a 16-bit value read as two's complement. -/
def sext16 (v : U16) : Int := if v.getLsbD 15 then (v.toNat : Int) - 65536 else v.toNat

/-- `sum(s)`: the sum of the bytes as a natural number (R11). -/
def sumBytes (s : Bytes) : Nat := (s.map BitVec.toNat).sum

/-- `sum + b` in the 16-bit register (R20). -/
def addByte (sum : U16) (b : Byte) : U16 := sum + b.setWidth 16

/-- `ck[15:8] <- b` (R21). -/
def setCkHi (ck : U16) (b : Byte) : U16 := (b ++ ck.extractLsb' 0 8).cast rfl

/-- `ck[7:0] <- b` (R21). -/
def setCkLo (ck : U16) (b : Byte) : U16 := (ck.extractLsb' 8 8 ++ b).cast rfl

/-- The encoding of the phase (R16), as `st_phase` and the TSW show it. -/
def Phase.bits : Phase → BitVec 2
  | .seek => 0
  | .hdr => 1
  | .pay => 2
  | .cke => 3

/-- The `sub` field of the TSW (R71). An index that no reachable state has and two bits do not hold counts as 3, a
TSW that selects nothing (assumption log 8). -/
def tswSubOf (s : State) : BitVec 2 :=
  match s.phase with
  | .seek => 0
  | .hdr => BitVec.ofNat 2 (min s.idx.toNat 3)
  | .pay => if s.idx.toNat + 1 = s.len.toNat then 1 else 0
  | .cke => BitVec.ofNat 2 (min s.idx.toNat 3)

end Sys2Proof.Machine
end

