-- ==== Sys2Proof/Machine/Bitfield.lean ====
section
/-! DEFINITION. The Bitfield Model (40_bitfield_model.md, R80 to R94): its pure functions, and the meanings of the
operations that call them. -/

namespace Sys2Proof.Machine

/-- `decodeProtection` (R81; bit map R66). -/
def decodeProtection (raw : U16) : ProtectionFlags where
  cellOv := raw.getLsbD 0
  cellUv := raw.getLsbD 1
  packOv := raw.getLsbD 2
  packUv := raw.getLsbD 3
  chgOt := raw.getLsbD 4
  chgUt := raw.getLsbD 5
  dsgOt := raw.getLsbD 6
  dsgUt := raw.getLsbD 7
  chgOc := raw.getLsbD 8
  dsgOc := raw.getLsbD 9
  shortCircuit := raw.getLsbD 10
  icError := raw.getLsbD 11
  fetLock := raw.getLsbD 12
  reserved := raw.extractLsb' 13 3

/-- `encodeProtection` (R82). -/
def encodeProtection (f : ProtectionFlags) : U16 :=
  (f.reserved ++ BitVec.ofBool f.fetLock ++ BitVec.ofBool f.icError ++ BitVec.ofBool f.shortCircuit
    ++ BitVec.ofBool f.dsgOc ++ BitVec.ofBool f.chgOc ++ BitVec.ofBool f.dsgUt ++ BitVec.ofBool f.dsgOt
    ++ BitVec.ofBool f.chgUt ++ BitVec.ofBool f.chgOt ++ BitVec.ofBool f.packUv ++ BitVec.ofBool f.packOv
    ++ BitVec.ofBool f.cellUv ++ BitVec.ofBool f.cellOv).cast rfl

/-- `decodeFet` (R85; bit map R67). -/
def decodeFetStatus (raw : Byte) : FetStatus where
  chgEn := raw.getLsbD 0
  dsgEn := raw.getLsbD 1
  reserved := raw.extractLsb' 2 6

/-- `encodeFet` (R86). -/
def encodeFetStatus (f : FetStatus) : Byte :=
  (f.reserved ++ BitVec.ofBool f.dsgEn ++ BitVec.ofBool f.chgEn).cast rfl

/-- The record of R89 once the lengths and counts are checked; layout R62. -/
def basicInfoOf (p : Bytes) : BasicInfo where
  voltage := be16 p 0
  current := sext16 (be16 p 2)
  remCapacity := be16 p 4
  typCapacity := be16 p 6
  cycles := be16 p 8
  prodDate := be16 p 10
  balanceStatus := be32 p 12
  prot := decodeProtection (be16 p 16)
  softwareVersion := byteAt p 18
  remCapPct := byteAt p 19
  fet := decodeFetStatus (byteAt p 20)
  cellCnt := (byteAt p 21).toNat
  ntcCnt := (byteAt p 22).toNat
  temps := (List.range (byteAt p 22).toNat).map fun k => be16 p (Config.basicFixedLen + 2 * k)

/-- `decodeBasicInfo` (R89): the three checks in the order of R140, then the record. -/
def decodeBasicInfo (p : Bytes) : Result DecodeError BasicInfo :=
  if p.length < Config.basicFixedLen then .err .tooShort
  else if Config.maxCells < (byteAt p 21).toNat ∨ Config.maxNtc < (byteAt p 22).toNat then .err .invalidCount
  else if p.length < Config.basicFixedLen + 2 * (byteAt p 22).toNat then .err .tooShort
  else .ok (basicInfoOf p)

/-- `balancing` (R91): an accessor of `balance_status`; refused at the reserved bits. -/
def balancing (b : U32) (i : Nat) : Except Refusal Bool :=
  if i < Config.maxCells then .ok (b.getLsbD i) else .error .reservedBalanceBit

/-- `decodeCellVoltages` (R93). -/
def decodeCellVoltages (p : Bytes) (count : Byte) : Result DecodeError (List U16) :=
  if Config.maxCells < count.toNat then .err .invalidCount
  else if p.length < 2 * count.toNat then .err .tooShort
  else .ok ((List.range count.toNat).map fun i => be16 p (2 * i))

/-- The year of `unpackDate` (R94). -/
def dateYear (d : U16) : Nat := 2000 + (d.extractLsb' 9 7).toNat

/-- The month of `unpackDate` (R94). -/
def dateMonth (d : U16) : Nat := (d.extractLsb' 5 4).toNat

/-- The day of `unpackDate` (R94). -/
def dateDay (d : U16) : Nat := (d.extractLsb' 0 5).toNat

/-! ### Meanings -/

/-- DECODE_PROT (R81). -/
def execDecodeProt (raw : U16) (s : State) : StepResult := answer (.decodeProt (decodeProtection raw)) s

/-- ENCODE_PROT (R82). -/
def execEncodeProt (f : ProtectionFlags) (s : State) : StepResult := answer (.encodeProt (encodeProtection f)) s

/-- DECODE_FET (R85). -/
def execDecodeFet (raw : Byte) (s : State) : StepResult := answer (.decodeFet (decodeFetStatus raw)) s

/-- ENCODE_FET (R86). -/
def execEncodeFet (f : FetStatus) (s : State) : StepResult := answer (.encodeFet (encodeFetStatus f)) s

/-- DECODE_BASIC (R89). -/
def execDecodeBasic (p : Bytes) (s : State) : StepResult := answer (.decodeBasic (decodeBasicInfo p)) s

/-- DECODE_CELLS (R93). -/
def execDecodeCells (p : Bytes) (count : Byte) (s : State) : StepResult :=
  answer (.decodeCells (decodeCellVoltages p count)) s

/-- UNPACK_DATE (R94). -/
def execUnpackDate (d : U16) (s : State) : StepResult :=
  answer (.unpackDate (dateYear d) (dateMonth d) (dateDay d)) s

end Sys2Proof.Machine
end

