-- ==== Sys2Proof/Machine/Codec.lean ====
section
/-! DEFINITION. The Frame Codec (41_frame_codec.md, R95 to R103): its pure functions, and the meanings of the
operations that call them. The functions that read `MAX_PAYLOAD` take it as an argument (R8). -/

namespace Sys2Proof.Machine

/-- `checksum` (R95): the two's complement of the 16-bit sum. -/
def checksumOf (r : Bytes) : U16 := BitVec.ofNat 16 ((65536 - sumBytes r % 65536) % 65536)

/-- `parseHeader` (R98). -/
def parseHeaderOf (maxPayload : Nat) (b0 b1 b2 : Byte) : Result FrameError (Byte × Byte) :=
  if b0 ≠ Config.startMarker then .err .badStart
  else if maxPayload < b2.toNat then .err .lengthMismatch
  else .ok (b1, b2)

/-- The checks of `validate` after the header (R99), for code `c` and length byte `l`. -/
def validateBody (s : Bytes) (c l : Byte) : Result FrameError ValidatedFrame :=
  if s.length ≠ l.toNat + 6 then .err .lengthMismatch
  else if byteAt s (s.length - 1) ≠ Config.endMarker then .err .badEnd
  else if (sumBytes (sliceBytes s 1 (3 + l.toNat)) + (be16 s (3 + l.toNat)).toNat) % 65536 ≠ 0 then
    .err .checksumMismatch
  else .ok { code := c, len := l, payload := sliceBytes s 3 (3 + l.toNat) }

/-- `validate` (R99), the checks in the order of R140. -/
def validateFrame (maxPayload : Nat) (s : Bytes) : Result FrameError ValidatedFrame :=
  if s.length = 0 ∨ byteAt s 0 ≠ Config.startMarker then .err .badStart
  else if s.length < 6 then .err .lengthMismatch
  else
    match parseHeaderOf maxPayload (byteAt s 0) (byteAt s 1) (byteAt s 2) with
    | .err e => .err e
    | .ok (c, l) => validateBody s c l

/-- The frame of code `c` and payload `p` (R55, R101), for a payload a length byte can describe. -/
def frameOf (c : Byte) (p : Bytes) : Bytes :=
  [Config.startMarker, c, BitVec.ofNat 8 p.length] ++ p
    ++ [(checksumOf ([c, BitVec.ofNat 8 p.length] ++ p)).extractLsb' 8 8,
        (checksumOf ([c, BitVec.ofNat 8 p.length] ++ p)).extractLsb' 0 8, Config.endMarker]

/-- `encodeCommand` (R101): refused for a payload longer than `MAX_PAYLOAD`. -/
def encodeCommandOf (maxPayload : Nat) (c : Byte) (p : Bytes) : Except Refusal Bytes :=
  if maxPayload < p.length then .error .payloadTooLong else .ok (frameOf c p)

/-- The kind of a response code (R60, R103). -/
def sliceKindOf (code : Byte) : SliceKind :=
  if code = Config.respBasic then .basic else if code = Config.respCells then .cells else .other

/-- The whole invariant of a `ValidatedFrame` (R97): `len(payload) = len ≤ MAX_PAYLOAD`. -/
def isValidatedFrame (maxPayload : Nat) (f : ValidatedFrame) : Bool := f.wf && decide (f.len.toNat ≤ maxPayload)

/-- `slicePayload` (R103); DEDUCED: refused for a record that is no `ValidatedFrame` (R97; assumption
log 14). -/
def slicePayloadOf (maxPayload : Nat) (f : ValidatedFrame) : Except Refusal (SliceKind × Bytes) :=
  if isValidatedFrame maxPayload f then .ok (sliceKindOf f.code, f.payload) else .error .operandOutsideDomain

/-! ### Meanings -/

/-- CHECKSUM (R95). -/
def execChecksum (r : Bytes) (s : State) : StepResult := answer (.checksum (checksumOf r)) s

/-- VALIDATE (R99). -/
def execValidate (bs : Bytes) (s : State) : StepResult :=
  withLegalConfig s (answer (.validate (validateFrame s.cfg.maxPayload bs)) s)

/-- ENCODE_COMMAND (R101). -/
def execEncodeCommand (c : Byte) (p : Bytes) (s : State) : StepResult :=
  withLegalConfig s <|
    match encodeCommandOf s.cfg.maxPayload c p with
    | .ok f => answer (.encodeCommand f) s
    | .error r => .refused r

/-- SLICE_PAYLOAD (R103). -/
def execSlicePayload (f : ValidatedFrame) (s : State) : StepResult :=
  withLegalConfig s <|
    match slicePayloadOf s.cfg.maxPayload f with
    | .ok (kind, p) => answer (.slicePayload kind p) s
    | .error r => .refused r

/-- PARSE_HEADER (R98). -/
def execParseHeader (b0 b1 b2 : Byte) (s : State) : StepResult :=
  withLegalConfig s (answer (.parseHeader (parseHeaderOf s.cfg.maxPayload b0 b1 b2)) s)

end Sys2Proof.Machine
end

