-- ==== Sys2Proof/Machine/Flags.lean ====
section
/-! DEFINITION. The conditions the SR tests (the FCB has no condition codes, R31): the elapsed timeout (R111), the
checksum test (R96, R122) and the choice of the transition (R112). -/

namespace Sys2Proof.Machine

/-- The condition of R111: `phase ≠ SEEK and timer ≥ TIMEOUT`. -/
def timedOut (s : State) : Bool := decide (s.phase ≠ .seek) && decide (s.cfg.timeout ≤ s.timer)

/-- `(sum + ck) mod 65536 = 0` (R122). -/
def sumGood (s : State) : Bool := decide (s.sum + s.ck = 0)

/-- The condition wires of R112 in a state. -/
def tswCondOf (s : State) : TswCond := { maxPayload := s.cfg.maxPayload, sumGood := sumGood s }

/-- The transition the TSW of byte `b` selects in a state (R71, R112). -/
def selectTransition (s : State) (b : Byte) : Except Reject Instr :=
  decode (.tsw (packTsw s.phase.bits (tswSubOf s) b) (tswCondOf s))

/-- A transition happens only in a state whose TSW selects it (R112; assumption log 1). -/
def whenSelected (i : Instr) (b : Byte) (s : State) (r : StepResult) : StepResult :=
  withLegalConfig s <|
    match selectTransition s b with
    | .ok j => if j = i then r else .refused .notSelected
    | .error _ => .refused .notSelected

end Sys2Proof.Machine
end

