-- ==== Sys2Proof/Machine/Transitions.lean ====
section
/-! DEFINITION. The twelve byte transitions of the Stream Reassembler and the timeout abandonment
(42_stream_reassembler.md, R111 to R124): what each does to the registers inside a cycle, and its meaning as an
operation of its own, which happens only in a state that selects it (R112; assumption log 1). -/

namespace Sys2Proof.Machine

/-! ### What each does (steps 3 and 4 of R106) -/

/-- R111: the pseudocode of TIMEOUT_ABANDON. -/
def doTimeoutAbandon (s : State) : State := raiseFrameError .timeout s

/-- R113. -/
def doSeekStart (s : State) : State := { s with phase := .hdr, idx := 0, sum := 0, entered := true }

/-- R114: the byte is discarded; `BadStart` only where `quiet` was 0. -/
def doSeekJunk (s : State) : State :=
  { s with event := if s.quiet then s.event else .err .badStart, quiet := true }

/-- "re-examine b": the `SEEK` transition for the same byte (R106, R117, R124). -/
def reexamine (b : Byte) (s : State) : State :=
  if b = Config.startMarker then doSeekStart s else doSeekJunk s

/-- R115. -/
def doHdrCode (b : Byte) (s : State) : State := { s with code := b, sum := addByte s.sum b, idx := 1 }

/-- R116. -/
def doHdrLenOk (b : Byte) (s : State) : State :=
  { s with len := b, sum := addByte s.sum b, idx := 0, phase := if b = 0 then .cke else .pay }

/-- R117. -/
def doHdrLenBad (b : Byte) (s : State) : State := reexamine b (raiseFrameError .lengthMismatch s)

/-- R118. `MemWrite` needs the index inside `buf` (R36; assumption log 9). -/
def doPayByte (b : Byte) (s : State) : StepResult :=
  if s.idx.toNat < s.cfg.maxPayload then
    .next { s with buf := s.buf.write s.idx.toNat b, sum := addByte s.sum b, idx := s.idx + 1 }
  else .fault .noBufferByte

/-- R119. -/
def doPayLast (b : Byte) (s : State) : StepResult :=
  if s.idx.toNat < s.cfg.maxPayload then
    .next { s with buf := s.buf.write s.idx.toNat b, sum := addByte s.sum b, phase := .cke, idx := 0 }
  else .fault .noBufferByte

/-- R120. -/
def doCkHi (b : Byte) (s : State) : State := { s with ck := setCkHi s.ck b, idx := 1 }

/-- R121. -/
def doCkLo (b : Byte) (s : State) : State := { s with ck := setCkLo s.ck b, idx := 2 }

/-- R122. `MemRead` and the copy need every index below `len` inside the arrays (R36; assumption log 9). -/
def doEndOk (s : State) : StepResult :=
  if s.len.toNat ≤ s.cfg.maxPayload then
    .next { s with
      foValid := true, foCode := s.code, foLen := s.len
      foPayload := fillFrom (bufRead s) s.len.toNat s.foPayload
      event := .frame, quiet := false, phase := .seek, idx := 0 }
  else .fault .noBufferByte

/-- R123: the end marker is consumed, not re-examined. -/
def doEndBadsum (s : State) : State := raiseFrameError .checksumMismatch s

/-- R124. -/
def doEndBadmark (b : Byte) (s : State) : State := reexamine b (raiseFrameError .badEnd s)

/-- Perform a transition that a TSW selected (step 4 of R106); no TSW selects anything else (R112). -/
def performTransition (i : Instr) (s : State) : StepResult :=
  match i with
  | .seekStart => .next (doSeekStart s)
  | .seekJunk _ => .next (doSeekJunk s)
  | .hdrCode b => .next (doHdrCode b s)
  | .hdrLenBad b => .next (doHdrLenBad b s)
  | .hdrLenOk b => .next (doHdrLenOk b s)
  | .payByte b => doPayByte b s
  | .payLast b => doPayLast b s
  | .ckHi b => .next (doCkHi b s)
  | .ckLo b => .next (doCkLo b s)
  | .endOk => doEndOk s
  | .endBadsum => .next (doEndBadsum s)
  | .endBadmark b => .next (doEndBadmark b s)
  | .cycReset => .refused .notSelected
  | .cycIdle => .refused .notSelected
  | .cycTick => .refused .notSelected
  | .cycByte _ _ => .refused .notSelected
  | .timeoutAbandon => .refused .notSelected
  | .decodeProt _ => .refused .notSelected
  | .encodeProt _ => .refused .notSelected
  | .decodeFet _ => .refused .notSelected
  | .encodeFet _ => .refused .notSelected
  | .decodeBasic _ => .refused .notSelected
  | .decodeCells _ _ => .refused .notSelected
  | .unpackDate _ => .refused .notSelected
  | .checksum _ => .refused .notSelected
  | .validate _ => .refused .notSelected
  | .encodeCommand _ _ => .refused .notSelected
  | .slicePayload _ => .refused .notSelected
  | .parseHeader _ _ _ => .refused .notSelected

/-! ### Meanings -/

/-- TIMEOUT_ABANDON (R111): where its condition holds. -/
def execTimeoutAbandon (s : State) : StepResult :=
  withLegalConfig s (if timedOut s then .next (doTimeoutAbandon s) else .refused .notSelected)

/-- SEEK_START (R113). -/
def execSeekStart (s : State) : StepResult :=
  whenSelected .seekStart Config.startMarker s (.next (doSeekStart s))

/-- SEEK_JUNK (R114). -/
def execSeekJunk (b : Byte) (s : State) : StepResult := whenSelected (.seekJunk b) b s (.next (doSeekJunk s))

/-- HDR_CODE (R115). -/
def execHdrCode (b : Byte) (s : State) : StepResult := whenSelected (.hdrCode b) b s (.next (doHdrCode b s))

/-- HDR_LEN_BAD (R117). -/
def execHdrLenBad (b : Byte) (s : State) : StepResult := whenSelected (.hdrLenBad b) b s (.next (doHdrLenBad b s))

/-- HDR_LEN_OK (R116). -/
def execHdrLenOk (b : Byte) (s : State) : StepResult := whenSelected (.hdrLenOk b) b s (.next (doHdrLenOk b s))

/-- PAY_BYTE (R118). -/
def execPayByte (b : Byte) (s : State) : StepResult := whenSelected (.payByte b) b s (doPayByte b s)

/-- PAY_LAST (R119). -/
def execPayLast (b : Byte) (s : State) : StepResult := whenSelected (.payLast b) b s (doPayLast b s)

/-- CK_HI (R120). -/
def execCkHi (b : Byte) (s : State) : StepResult := whenSelected (.ckHi b) b s (.next (doCkHi b s))

/-- CK_LO (R121). -/
def execCkLo (b : Byte) (s : State) : StepResult := whenSelected (.ckLo b) b s (.next (doCkLo b s))

/-- END_OK (R122). -/
def execEndOk (s : State) : StepResult := whenSelected .endOk Config.endMarker s (doEndOk s)

/-- END_BADSUM (R123). -/
def execEndBadsum (s : State) : StepResult := whenSelected .endBadsum Config.endMarker s (.next (doEndBadsum s))

/-- END_BADMARK (R124). -/
def execEndBadmark (b : Byte) (s : State) : StepResult :=
  whenSelected (.endBadmark b) b s (.next (doEndBadmark b s))

end Sys2Proof.Machine
end

