-- ==== Sys2Proof/Machine/Cycle.lean ====
section
/-! DEFINITION. The four cycle operations (42_stream_reassembler.md, R106 to R110). Each is one clock cycle. -/

namespace Sys2Proof.Machine

/-- Step 3 of R106: the abandonment check, before the byte of the cycle. -/
def abandonIfElapsed (s : State) : State := if timedOut s then doTimeoutAbandon s else s

/-- Step 4 of R106: the transition the TSW of the byte selects. -/
def byteTransition (b : Byte) (s : State) : StepResult :=
  match selectTransition s b with
  | .ok i => performTransition i s
  | .error _ => .fault .impossibleTsw

/-- Steps 2 to 6 of R106 in a cycle that presents no byte. -/
def cycleNoByte (tick : Bool) (s : State) : StepResult :=
  withLegalConfig s (.next (endCycle tick (abandonIfElapsed (beginCycle s))))

/-- Steps 2 to 6 of R106 in a cycle that presents byte `b`. -/
def cycleWithByte (tick : Bool) (b : Byte) (s : State) : StepResult :=
  withLegalConfig s (thenNext (endCycle tick) (byteTransition b (abandonIfElapsed (beginCycle s))))

/-- CYC_RESET (R107): `buf` and `fo_payload` are not written. -/
def execCycReset (s : State) : StepResult :=
  .next { s with
    phase := .seek, idx := 0, code := 0, len := 0, sum := 0, ck := 0, timer := 0, quiet := false
    foValid := false, foCode := 0, foLen := 0, event := .none, entered := false }

/-- CYC_IDLE (R108). -/
def execCycIdle (s : State) : StepResult := cycleNoByte false s

/-- CYC_TICK (R109). -/
def execCycTick (s : State) : StepResult := cycleNoByte true s

/-- CYC_BYTE (R110). -/
def execCycByte (tick : Bool) (b : Byte) (s : State) : StepResult := cycleWithByte tick b s

end Sys2Proof.Machine
end

