-- ==== Sys2Proof/Machine/Dispatch.lean ====
section
/-! DEFINITION. The dispatch: one arm per operation of opcode_table.json, each one call of its meaning. -/

namespace Sys2Proof.Machine

-- Perform one operation on a state.
def exec (i : Instr) (s : State) : Host.Outcome State Fault Refusal :=
  match i with
  | .cycReset => Sys2Proof.Machine.execCycReset s
  | .cycIdle => Sys2Proof.Machine.execCycIdle s
  | .cycTick => Sys2Proof.Machine.execCycTick s
  | .cycByte tick b => Sys2Proof.Machine.execCycByte tick b s
  | .timeoutAbandon => Sys2Proof.Machine.execTimeoutAbandon s
  | .seekStart => Sys2Proof.Machine.execSeekStart s
  | .seekJunk b => Sys2Proof.Machine.execSeekJunk b s
  | .hdrCode b => Sys2Proof.Machine.execHdrCode b s
  | .hdrLenBad b => Sys2Proof.Machine.execHdrLenBad b s
  | .hdrLenOk b => Sys2Proof.Machine.execHdrLenOk b s
  | .payByte b => Sys2Proof.Machine.execPayByte b s
  | .payLast b => Sys2Proof.Machine.execPayLast b s
  | .ckHi b => Sys2Proof.Machine.execCkHi b s
  | .ckLo b => Sys2Proof.Machine.execCkLo b s
  | .endOk => Sys2Proof.Machine.execEndOk s
  | .endBadsum => Sys2Proof.Machine.execEndBadsum s
  | .endBadmark b => Sys2Proof.Machine.execEndBadmark b s
  | .decodeProt raw => Sys2Proof.Machine.execDecodeProt raw s
  | .encodeProt f => Sys2Proof.Machine.execEncodeProt f s
  | .decodeFet raw => Sys2Proof.Machine.execDecodeFet raw s
  | .encodeFet f => Sys2Proof.Machine.execEncodeFet f s
  | .decodeBasic p => Sys2Proof.Machine.execDecodeBasic p s
  | .decodeCells p count => Sys2Proof.Machine.execDecodeCells p count s
  | .unpackDate d => Sys2Proof.Machine.execUnpackDate d s
  | .checksum r => Sys2Proof.Machine.execChecksum r s
  | .validate bs => Sys2Proof.Machine.execValidate bs s
  | .encodeCommand c p => Sys2Proof.Machine.execEncodeCommand c p s
  | .slicePayload f => Sys2Proof.Machine.execSlicePayload f s
  | .parseHeader b0 b1 b2 => Sys2Proof.Machine.execParseHeader b0 b1 b2 s

end Sys2Proof.Machine
end

