-- ==== Sys2Proof/Machine/Fetch.lean ====
section
/-! DEFINITION. Where the machine takes its next operation from: the host's moves (R161; assumption logs 2, 3, 6). The
FCB fetches no instructions (R51); the host drives a cycle input word or a function selector. -/

namespace Sys2Proof.Machine

/-- The configuration inputs of a cycle (R25, R151): a reset cycle takes any legal configuration, any other cycle must
show the one that is held. -/
def sampleConfig (ports : CyclePorts) (s : State) : Except Refusal State :=
  if ports.params.legal then
    if ciwRst ports.ciw then .ok { s with cfg := ports.params }
    else if ports.params = s.cfg then .ok s
    else .error .configurationChanged
  else .error .illegalConfiguration

/-- Why a call is refused. -/
def refusalOf : Reject → Refusal
  | .reservedFop => .reservedSelector
  | .noTransition => .notSelected
  | .conditionFalse => .notSelected
  | .operandOutsideDomain => .operandOutsideDomain

/-- The operation a move selects, and the state it acts on. -/
def fetchMove (m : HostMove) (s : State) : Except Refusal (Instr × State) :=
  match m with
  | .cycle ports =>
    match sampleConfig ports s with
    | .ok t => .ok (decodeCiw ports.ciw, t)
    | .error r => .error r
  | .call fop ops =>
    match decode (.fop fop ops) with
    | .ok i => .ok (i, s)
    | .error r => .error (refusalOf r)

/-- The next operation: that of the first move, which is taken off the list. With no move left the ports carry no byte,
no tick and no reset: an idle cycle (assumption log 3). -/
def fetch (s : State) : Except Refusal (Instr × State) :=
  match s.moves with
  | [] => .ok (.cycIdle, s)
  | m :: rest => fetchMove m { s with moves := rest }

/-! ### Placing a table word where the next step takes it (assumption log 13) -/

/-- A cycle that shows a CIW and the configuration that is held. -/
def plainCycle (s : State) (w : BitVec 11) : HostMove :=
  .cycle { ciw := w, foRdAddr := 0, cellCntIn := 0, params := s.cfg }

/-- The state that selects a TSW when its byte is presented: the phase, the index and, in `PAY`, the length that give the
`sub` field (R71), a timer that has not elapsed, a limit the transition stays within and, for the end marker, a good
checksum (the one the table's word stands for in `decodeTableWord`). -/
def preparedForTsw (w : BitVec 12) (s : State) : State :=
  match tswPhase w with
  | 0 => { s with phase := .seek }
  | 1 => { s with
      phase := .hdr, idx := (tswSub w).setWidth 8, timer := 0
      cfg := { s.cfg with maxPayload := max s.cfg.maxPayload (tswByte w).toNat } }
  | 2 => { s with
      phase := .pay, idx := 0, timer := 0, len := if tswSub w = 1 then 1 else 2
      cfg := { s.cfg with maxPayload := max s.cfg.maxPayload 2 } }
  | _ => { s with
      phase := .cke, idx := (tswSub w).setWidth 8, timer := 0
      ck := if w = 0xE77 then -s.sum else s.ck
      cfg := { s.cfg with maxPayload := max s.cfg.maxPayload s.len.toNat } }

/-- Put one move before the others. -/
def pushMove (m : HostMove) (s : State) : State := { s with moves := m :: s.moves }

/-- `s` with the operation the number `w` of `nbits` bits stands for (`tableSelector`) as the next one. -/
def placeTableWord (s : State) (nbits w : Nat) : State :=
  match tableSelector nbits w with
  | some (.ciw c) => pushMove (plainCycle s c) s
  | some (.tsw t _) => pushMove (plainCycle (preparedForTsw t s) (packCiw false false true (tswByte t))) (preparedForTsw t s)
  | some (.fop f ops) => pushMove (.call f ops) s
  | some (.srCondition c _) => pushMove (plainCycle s c) s
  | none => pushMove (.call 0 FuOperands.zero) s

end Sys2Proof.Machine
end

