-- ==== Sys2Proof/Machine/Step.lean ====
section
/-! DEFINITION. One step: the next operation of the host's moves, performed (R106, R161). -/

namespace Sys2Proof.Machine

/-- One step of the machine: one clock cycle, or one call of a pure function. -/
def step (s : State) : Host.Outcome State Fault Refusal :=
  match fetch s with
  | .ok (i, t) => exec i t
  | .error r => .refused r

/-- `s` with the operation that the table's number `w` stands for placed where `step` takes its next one. -/
def State.withFetchWord (s : State) (nbits w : Nat) : State := placeTableWord s nbits w

end Sys2Proof.Machine
end

