-- ==== Sys2Proof/Machine/Outputs.lean ====
section
/-! DEFINITION. The outputs of the FCB (R28 of 10_state.md): functions of the registers and of the ports the host drives
in the same cycle (assumption log 16). They change no state (R45). -/

namespace Sys2Proof.Machine

/-- The codes of FrameError on `ev_err` (R73, R134). -/
def FrameError.bits : FrameError → BitVec 3
  | .badStart => 1
  | .badEnd => 2
  | .checksumMismatch => 3
  | .lengthMismatch => 4
  | .timeout => 5

/-- The codes of DecodeError (R74). -/
def DecodeError.number : DecodeError → Nat
  | .tooShort => 1
  | .invalidCount => 2

/-- Whether an error is structural or checksum-only (R100, R134). -/
def FrameError.structural : FrameError → Bool
  | .badStart => true
  | .badEnd => true
  | .checksumMismatch => false
  | .lengthMismatch => true
  | .timeout => true

/-- `ev_kind` (R75). -/
def evKind (s : State) : BitVec 2 :=
  match s.event with
  | .none => 0
  | .frame => 1
  | .err _ => 2

/-- `ev_err` (R73). -/
def evErr (s : State) : BitVec 3 :=
  match s.event with
  | .none => 0
  | .frame => 0
  | .err e => e.bits

/-- `st_phase` (R28). -/
def stPhase (s : State) : BitVec 2 := s.phase.bits

/-- `fo_rd_data` (R29). -/
def foRdData (s : State) (foRdAddr : Byte) : Byte :=
  if s.foValid = true ∧ foRdAddr.toNat < s.foLen.toNat then foPayloadRead s foRdAddr.toNat else 0

/-- The frame the views slice (R104). -/
def foFrame (s : State) : ValidatedFrame := { code := s.foCode, len := s.foLen, payload := foBytes s }

/-- The kind of the frame in `frame_out`, if there is one (R104). -/
def viewSlice (s : State) : Option SliceKind := if s.foValid then some (sliceKindOf s.foCode) else none

/-- `view_kind` (R75, R104). -/
def viewKind (s : State) : BitVec 2 :=
  match viewSlice s with
  | none => 0
  | some .basic => 1
  | some .cells => 2
  | some .other => 3

/-- `view_basic` (R104). -/
def viewBasic (s : State) : Option (Result DecodeError BasicInfo) :=
  if viewSlice s = some .basic then some (decodeBasicInfo (foBytes s)) else none

/-- `view_cells` (R104), with the host's `cell_cnt_in`. -/
def viewCells (s : State) (cellCntIn : Byte) : Option (Result DecodeError (List U16)) :=
  if viewSlice s = some .cells then some (decodeCellVoltages (foBytes s) cellCntIn) else none

/-- Every output of R28 at once. -/
structure Outputs where
  evKind : BitVec 2
  evErr : BitVec 3
  foValid : Bool
  foCode : Byte
  foLen : Byte
  foRdData : Byte
  stPhase : BitVec 2
  viewKind : BitVec 2
  viewBasic : Option (Result DecodeError BasicInfo)
  viewCells : Option (Result DecodeError (List U16))
  deriving DecidableEq, Repr

/-- What the host sees in the cycle in which the registers are those of `s` and it drives `ports` (R26, R28). -/
def outputs (s : State) (ports : CyclePorts) : Outputs where
  evKind := evKind s
  evErr := evErr s
  foValid := s.foValid
  foCode := s.foCode
  foLen := s.foLen
  foRdData := foRdData s ports.foRdAddr
  stPhase := stPhase s
  viewKind := viewKind s
  viewBasic := viewBasic s
  viewCells := viewCells s ports.cellCntIn

end Sys2Proof.Machine
end

