-- ==== Sys2Proof/Machine/Run.lean ====
section
/-! DEFINITION. Runs: the launch (R150), the run over a finite sequence of cycle input words and its observation
(R162), and the program notation (R79). -/

namespace Sys2Proof.Machine

/-- The launch premises of R150: a legal configuration and a first word with `rst = 1`. -/
abbrev Launch (p : Config.Params) (words : List (BitVec 11)) : Prop :=
  p.legal = true ∧ (words.head?.map ciwRst) = some true

/-- An observed event: the number of the cycle that computed it, unless it is `NONE` (R162). -/
def observed (n : Nat) (e : Event) : List (Nat × Event) := if e = .none then [] else [(n, e)]

/-- Perform the cycle operations the words select, the first in cycle `n`: the events, each with its cycle, and the last
state (R162). -/
def runWords : Nat → List (BitVec 11) → State → Host.Outcome (List (Nat × Event) × State) Fault Refusal
  | _, [], s => .next ([], s)
  | n, w :: ws, s =>
    match exec (decodeCiw w) s with
    | .next t =>
      match runWords (n + 1) ws t with
      | .next (evs, u) => .next (observed n t.event ++ evs, u)
      | .fault r => .fault r
      | .refused r => .refused r
    | .fault r => .fault r
    | .refused r => .refused r

/-- The bytes a list of CIWs without reset presents, in order. -/
def presentedBytes (ws : List (BitVec 11)) : Bytes :=
  ws.filterMap fun w => if ciwValid w then some (ciwByte w) else none

/-- The bytes of `buf` that R33 makes defined: those of the frame being received. -/
def definedBuf (s : State) : Bytes :=
  match s.phase with
  | .seek => []
  | .hdr => []
  | .pay => (List.range s.idx.toNat).map (bufRead s)
  | .cke => (List.range s.len.toNat).map (bufRead s)

/-- The bytes of `fo_payload` that R33 makes defined. -/
def definedFoPayload (s : State) : Bytes := if s.foValid then foBytes s else []

/-- The final state as R162 observes it: every register, the two arrays restricted to their defined bytes. -/
structure FinalView where
  phase : Phase
  idx : Byte
  code : Byte
  len : Byte
  buf : Bytes
  sum : U16
  ck : U16
  timer : Nat
  quiet : Bool
  foValid : Bool
  foCode : Byte
  foLen : Byte
  foPayload : Bytes
  deriving DecidableEq, Repr

/-- The observation of a state at the end of a run (R162). -/
def finalView (s : State) : FinalView where
  phase := s.phase
  idx := s.idx
  code := s.code
  len := s.len
  buf := definedBuf s
  sum := s.sum
  ck := s.ck
  timer := s.timer
  quiet := s.quiet
  foValid := s.foValid
  foCode := s.foCode
  foLen := s.foLen
  foPayload := definedFoPayload s

/-- One line of the program notation (R79), pseudo-instructions included. -/
inductive Line where
  | rst
  | idle
  | tick
  | byte (b : Byte)
  | byteT (b : Byte)
  | feed (bs : Bytes)
  | idles (n : Nat)
  | ticks (n : Nat)
  | send (c : Byte) (p : Bytes)
  | call (fop : BitVec 4) (ops : FuOperands)
  deriving DecidableEq, Repr

/-- The CIW of `BYTE bb` (R79). -/
def byteWord (b : Byte) : BitVec 11 := packCiw false false true b

/-- A cycle of a program: the other ports at 0, the configuration held. -/
def cycleMove (p : Config.Params) (w : BitVec 11) : HostMove :=
  .cycle { ciw := w, foRdAddr := 0, cellCntIn := 0, params := p }

/-- The moves a line of a program stands for (R79). `SEND` of a payload too long is the call that is refused (R101). -/
def lineMoves (p : Config.Params) : Line → List HostMove
  | .rst => [cycleMove p (packCiw true false false 0)]
  | .idle => [cycleMove p (packCiw false false false 0)]
  | .tick => [cycleMove p (packCiw false true false 0)]
  | .byte b => [cycleMove p (byteWord b)]
  | .byteT b => [cycleMove p (packCiw false true true b)]
  | .feed bs => bs.map fun b => cycleMove p (byteWord b)
  | .idles n => List.replicate n (cycleMove p (packCiw false false false 0))
  | .ticks n => List.replicate n (cycleMove p (packCiw false true false 0))
  | .send c bs =>
    match encodeCommandOf p.maxPayload c bs with
    | .ok f => f.map fun b => cycleMove p (byteWord b)
    | .error _ => [.call 0xA { FuOperands.zero with byte0 := c, bytes := bs }]
  | .call fop ops => [.call fop ops]

/-- The moves of a program. -/
def programMoves (p : Config.Params) (ls : List Line) : List HostMove := ls.flatMap (lineMoves p)

end Sys2Proof.Machine
end

