-- ==== Sys2Proof/Safety.lean ====
section
/-! DEFINITION. What holds of the machine in every cycle from reset on: the invariants claims assume and every step
keeps. R27 gives the first; R39 and R20 the last two. -/

namespace Sys2Proof.Machine

/-- The invariants of R27. -/
abbrev State.srInv (s : State) : Prop :=
  (s.phase = .seek → s.idx = 0 ∧ s.timer = 0) ∧
  (s.phase = .hdr → s.idx.toNat ≤ 1) ∧
  (s.phase = .pay → 1 ≤ s.len.toNat ∧ s.len.toNat ≤ s.cfg.maxPayload ∧ s.idx.toNat < s.len.toNat) ∧
  (s.phase = .cke → s.idx.toNat ≤ 2 ∧ s.len.toNat ≤ s.cfg.maxPayload) ∧
  s.timer ≤ s.cfg.timeout ∧
  (s.foValid = true → s.foLen.toNat ≤ s.cfg.maxPayload)

/-- Both arrays are in canonical form, with indices an array of at most 255 bytes has (R36). -/
abbrev State.arraysWf (s : State) : Prop := Memory.wf s.buf ∧ Memory.wf s.foPayload

/-- The machine's invariant: R27, canonical arrays, a legal configuration (R8, R150), and no cycle under way. -/
abbrev State.Inv (s : State) : Prop :=
  s.srInv ∧ s.arraysWf ∧ s.cfg.legal = true ∧ s.entered = false

/-- R39: every byte the SR or the host reads from an array has been written. -/
abbrev State.allWritten (s : State) : Prop :=
  (s.phase = .pay → ∀ i < s.idx.toNat, (s.buf.read? i).isSome = true) ∧
  (s.phase = .cke → ∀ i < s.len.toNat, (s.buf.read? i).isSome = true) ∧
  (s.foValid = true → ∀ i < s.foLen.toNat, (s.foPayload.read? i).isSome = true)

/-- The sum of the code byte, the length byte and the first `n` bytes of `buf` (R20, R58). -/
def regionSum (s : State) (n : Nat) : Nat :=
  s.code.toNat + s.len.toNat + sumBytes ((List.range n).map (bufRead s))

/-- R20: `sum` holds the sum of the region bytes of the current frame received so far, without wrapping. -/
abbrev State.sumTracks (s : State) : Prop :=
  (s.phase = .hdr → s.idx = 0 → s.sum = 0) ∧
  (s.phase = .hdr → s.idx = 1 → s.sum.toNat = s.code.toNat) ∧
  (s.phase = .pay → s.sum.toNat = regionSum s s.idx.toNat) ∧
  (s.phase = .cke → s.sum.toNat = regionSum s s.len.toNat)

/-- Two states that agree on everything but the bytes of `buf` and `fo_payload` that R33 makes don't-care. -/
def AgreeOnDefined (s s' : State) : Prop :=
  finalView s = finalView s' ∧ s.event = s'.event ∧ s.entered = s'.entered ∧ s.cfg = s'.cfg ∧
  s.fuResult = s'.fuResult ∧ s.moves = s'.moves

end Sys2Proof.Machine
end

