-- ==== Sys2Proof/Certificates/Slice0/Obligations.lean ====
section
/-! DEFINITION. The statements for the provers. Each docstring names the rule of spec/ it formalises. An equation
`exec i s = .next { s with … }` says what the operation completes with and its whole frame: every field that is not
named keeps its value (R34). The fields `fuResult` and `moves` are the model's own (assumption logs 2 and 11). -/

open Sys2Proof Sys2Proof.Machine

/-! ### Cycles -/

/-- R107: whatever the state and whatever the other ten bits of the CIW, a reset cycle leaves the reset values in the
registers; `buf`, `fo_payload` and the configuration are not written. Of the wire `entered`, which no register holds
(assumption log 10), nothing is said. -/
def Obligations.ResetCycleLeavesResetValues : Prop :=
  (∀ w : BitVec 11, w &&& 0x400 = 0x400 → decode (.ciw w) = .ok .cycReset) ∧
  ∀ s : State, ∃ e : Bool, exec .cycReset s = .next { s with
    phase := .seek, idx := 0, code := 0, len := 0, sum := 0, ck := 0, timer := 0, quiet := false
    foValid := false, foCode := 0, foLen := 0, event := .none, entered := e }

/-- R35, of the state the model starts from. R35 leaves the two arrays unspecified: a read gives a free value, which is
the model's form of "any value" (assumption log 4). -/
def Obligations.ResetStateHoldsTheTable : Prop :=
  State.reset.phase = .seek ∧ State.reset.idx = 0 ∧ State.reset.code = 0 ∧ State.reset.len = 0 ∧
  State.reset.sum = 0 ∧ State.reset.ck = 0 ∧ State.reset.timer = 0 ∧ State.reset.quiet = false ∧
  State.reset.foValid = false ∧ State.reset.foCode = 0 ∧ State.reset.foLen = 0 ∧ State.reset.event = .none ∧
  (∀ i, bufRead State.reset i = Config.bufUnwritten i) ∧
  ∀ i, foPayloadRead State.reset i = Config.foPayloadUnwritten i

/-- R70: which cycle operation a CIW selects, with bit 10 `rst`, bit 9 `tick`, bit 8 `in_valid`, bits 7:0 `in_byte`. -/
def Obligations.CycleWordSelectsItsOperation : Prop :=
  ∀ w : BitVec 11,
    (w.getLsbD 10 = true → decode (.ciw w) = .ok .cycReset) ∧
    (w.getLsbD 10 = false → w.getLsbD 8 = true →
      decode (.ciw w) = .ok (.cycByte (w.getLsbD 9) (w.extractLsb' 0 8))) ∧
    (w.getLsbD 10 = false → w.getLsbD 8 = false → w.getLsbD 9 = true → decode (.ciw w) = .ok .cycTick) ∧
    (w.getLsbD 10 = false → w.getLsbD 8 = false → w.getLsbD 9 = false → decode (.ciw w) = .ok .cycIdle)

/-- R108: an idle cycle changes nothing but the event output, unless the timeout has already elapsed. -/
def Obligations.IdleCycleChangesNothingUnlessElapsed : Prop :=
  (∀ w : BitVec 11, w &&& 0x700 = 0x000 → decode (.ciw w) = .ok .cycIdle) ∧
  ∀ s : State, s.Inv →
    (¬ (s.phase ≠ .seek ∧ s.cfg.timeout ≤ s.timer) → exec .cycIdle s = .next { s with event := .none }) ∧
    (s.phase ≠ .seek ∧ s.cfg.timeout ≤ s.timer →
      exec .cycIdle s = .next { s with
        event := .err .timeout, quiet := true, phase := .seek, idx := 0, timer := 0 })

/-- R109: a tick does nothing in `SEEK`, counts in a frame, and is not counted in the cycle that abandons. -/
def Obligations.TickCycleCountsInAFrame : Prop :=
  (∀ w : BitVec 11, w &&& 0x700 = 0x200 → decode (.ciw w) = .ok .cycTick) ∧
  ∀ s : State, s.Inv →
    (s.phase = .seek → exec .cycTick s = .next { s with event := .none }) ∧
    (s.phase ≠ .seek → s.timer < s.cfg.timeout →
      exec .cycTick s = .next { s with event := .none, timer := s.timer + 1 }) ∧
    (s.phase ≠ .seek → s.cfg.timeout ≤ s.timer →
      exec .cycTick s = .next { s with
        event := .err .timeout, quiet := true, phase := .seek, idx := 0, timer := 0 })

/-- R106, R110: a byte cycle that has not timed out performs the transition that the TSW of its byte selects, and then
updates the timer and ends the cycle. -/
def Obligations.ByteCyclePerformsTheSelectedTransition : Prop :=
  ∀ (s u : State) (tick : Bool) (b : Byte) (i : Instr),
    s.cfg.legal = true → (s.phase = .seek ∨ s.timer < s.cfg.timeout) →
    selectTransition s b = .ok i → exec i { s with event := .none, entered := false } = .next u →
    exec (.cycByte tick b) s = .next { u with
      timer := if u.phase = .seek ∨ u.entered = true then 0
               else if tick = true then min (u.timer + 1) u.cfg.timeout else u.timer
      entered := false }

/-- R130, R34: from every state of the invariant a byte cycle completes, whatever the byte, and writes neither the
configuration nor the model's own fields. -/
def Obligations.ByteCycleAlwaysCompletes : Prop :=
  ∀ (s : State) (tick : Bool) (b : Byte), s.Inv →
    ∃ u, exec (.cycByte tick b) s = .next u ∧ u.cfg = s.cfg ∧ u.fuResult = s.fuResult ∧ u.moves = s.moves

/-- R110's corner case: in the cycle that abandons, the byte is processed in `SEEK`, and the event is `Timeout`. -/
def Obligations.ByteOfTheExpiryCycleIsReadInSeek : Prop :=
  ∀ (s : State) (tick : Bool) (b : Byte), s.Inv → s.phase ≠ .seek → s.cfg.timeout ≤ s.timer →
    (b = 0xDD → exec (.cycByte tick b) s = .next { s with
      event := .err .timeout, quiet := true, phase := .hdr, idx := 0, sum := 0, timer := 0 }) ∧
    (b ≠ 0xDD → exec (.cycByte tick b) s = .next { s with
      event := .err .timeout, quiet := true, phase := .seek, idx := 0, timer := 0 })

/-- R111: the abandonment where its condition holds. No CIW and no TSW selects it; a cycle without reset in which the
condition holds does. -/
def Obligations.TimeoutAbandonsTheFrame : Prop :=
  (∀ w : BitVec 11, decode (.ciw w) ≠ .ok .timeoutAbandon) ∧
  (∀ (w : BitVec 12) (c : TswCond), decode (.tsw w c) ≠ .ok .timeoutAbandon) ∧
  (∀ w : BitVec 11, w.getLsbD 10 = false → decode (.srCondition w true) = .ok .timeoutAbandon) ∧
  ∀ s : State, s.cfg.legal = true → s.phase ≠ .seek → s.cfg.timeout ≤ s.timer →
    exec .timeoutAbandon s = .next { s with event := .err .timeout, quiet := true, phase := .seek, idx := 0 }

/-! ### Byte transitions -/

/-- R113: the byte `START` in `SEEK`. -/
def Obligations.SeekStartBeginsAFrame : Prop :=
  (∀ (w : BitVec 12) (c : TswCond), w &&& 0xCFF = 0x0DD → decode (.tsw w c) = .ok .seekStart) ∧
  ∀ s : State, s.cfg.legal = true → s.phase = .seek →
    exec .seekStart s = .next { s with phase := .hdr, idx := 0, sum := 0, entered := true }

/-- R114: junk is reported only while `quiet` is 0, and sets it. -/
def Obligations.SeekJunkReportsOnce : Prop :=
  (∀ (w : BitVec 12) (c : TswCond), w &&& 0xC00 = 0x000 → w &&& 0xCFF ≠ 0x0DD →
    decode (.tsw w c) = .ok (.seekJunk (w.extractLsb' 0 8))) ∧
  ∀ (s : State) (b : Byte), s.cfg.legal = true → s.phase = .seek → b ≠ 0xDD →
    (s.quiet = false → exec (.seekJunk b) s = .next { s with event := .err .badStart, quiet := true }) ∧
    (s.quiet = true → exec (.seekJunk b) s = .next s)

/-- R115: every byte value is a code byte. -/
def Obligations.HdrCodeTakesEveryByte : Prop :=
  (∀ (w : BitVec 12) (c : TswCond), w &&& 0xF00 = 0x400 → decode (.tsw w c) = .ok (.hdrCode (w.extractLsb' 0 8))) ∧
  ∀ (s : State) (b : Byte), s.cfg.legal = true → s.phase = .hdr → s.idx = 0 →
    exec (.hdrCode b) s = .next { s with code := b, sum := s.sum + b.setWidth 16, idx := 1 }

/-- R116: a length byte within the limit; 0 goes straight to the checksum bytes. -/
def Obligations.HdrLenOkOpensThePayload : Prop :=
  (∀ (w : BitVec 12) (c : TswCond), w &&& 0xF00 = 0x500 → (w.extractLsb' 0 8).toNat ≤ c.maxPayload →
    decode (.tsw w c) = .ok (.hdrLenOk (w.extractLsb' 0 8))) ∧
  ∀ (s : State) (b : Byte), s.cfg.legal = true → s.phase = .hdr → s.idx = 1 → b.toNat ≤ s.cfg.maxPayload →
    exec (.hdrLenOk b) s = .next { s with
      len := b, sum := s.sum + b.setWidth 16, idx := 0, phase := if b = 0 then .cke else .pay }

/-- R117: the error, and the byte re-examined as a start marker or (silently) as junk. -/
def Obligations.HdrLenBadReexaminesItsByte : Prop :=
  (∀ (w : BitVec 12) (c : TswCond), w &&& 0xF00 = 0x500 → c.maxPayload < (w.extractLsb' 0 8).toNat →
    decode (.tsw w c) = .ok (.hdrLenBad (w.extractLsb' 0 8))) ∧
  ∀ (s : State) (b : Byte), s.cfg.legal = true → s.phase = .hdr → s.idx = 1 → s.cfg.maxPayload < b.toNat →
    (b ≠ 0xDD → exec (.hdrLenBad b) s = .next { s with
      event := .err .lengthMismatch, quiet := true, phase := .seek, idx := 0 }) ∧
    (b = 0xDD → exec (.hdrLenBad b) s = .next { s with
      event := .err .lengthMismatch, quiet := true, phase := .hdr, idx := 0, sum := 0, entered := true })

/-- R118, R119: a payload byte is stored at `idx` of `buf`, at no other index, and summed; the last one (`idx + 1 = len`)
ends the payload. -/
def Obligations.PayloadBytesAreStoredAtIdx : Prop :=
  (∀ (w : BitVec 12) (c : TswCond), w &&& 0xF00 = 0x800 → decode (.tsw w c) = .ok (.payByte (w.extractLsb' 0 8))) ∧
  (∀ (w : BitVec 12) (c : TswCond), w &&& 0xF00 = 0x900 → decode (.tsw w c) = .ok (.payLast (w.extractLsb' 0 8))) ∧
  ∀ (s : State) (b : Byte), s.cfg.legal = true → s.phase = .pay → s.idx.toNat < s.cfg.maxPayload →
    ∃ m : Memory, m.read? s.idx.toNat = some b ∧ (∀ j, j ≠ s.idx.toNat → m.read? j = s.buf.read? j) ∧
      (s.idx.toNat + 1 < s.len.toNat →
        exec (.payByte b) s = .next { s with buf := m, sum := s.sum + b.setWidth 16, idx := s.idx + 1 }) ∧
      (s.idx.toNat + 1 = s.len.toNat →
        exec (.payLast b) s = .next { s with buf := m, sum := s.sum + b.setWidth 16, phase := .cke, idx := 0 })

/-- R120, R121: the first checksum byte is the high half of `ck`, the second the low half; the other half is kept. -/
def Obligations.ChecksumBytesFillTheRegister : Prop :=
  (∀ (w : BitVec 12) (c : TswCond), w &&& 0xF00 = 0xC00 → decode (.tsw w c) = .ok (.ckHi (w.extractLsb' 0 8))) ∧
  (∀ (w : BitVec 12) (c : TswCond), w &&& 0xF00 = 0xD00 → decode (.tsw w c) = .ok (.ckLo (w.extractLsb' 0 8))) ∧
  ∀ (s : State) (b : Byte), s.cfg.legal = true → s.phase = .cke →
    (s.idx = 0 → ∃ k : BitVec 16, k.extractLsb' 8 8 = b ∧ k.extractLsb' 0 8 = s.ck.extractLsb' 0 8 ∧
      exec (.ckHi b) s = .next { s with ck := k, idx := 1 }) ∧
    (s.idx = 1 → ∃ k : BitVec 16, k.extractLsb' 0 8 = b ∧ k.extractLsb' 8 8 = s.ck.extractLsb' 8 8 ∧
      exec (.ckLo b) s = .next { s with ck := k, idx := 2 })

/-- R122: the frame is emitted: `frame_out` takes the code, the length and the `len` bytes of `buf`, and keeps its other
bytes. -/
def Obligations.EndOkEmitsTheFrame : Prop :=
  (∀ c : TswCond, c.sumGood = true → decode (.tsw 0xE77 c) = .ok .endOk) ∧
  ∀ s : State, s.cfg.legal = true → s.phase = .cke → s.idx = 2 → s.len.toNat ≤ s.cfg.maxPayload →
    (s.sum.toNat + s.ck.toNat) % 65536 = 0 →
    ∃ m : Memory, (∀ i, i < s.len.toNat → m.read? i = some (bufRead s i)) ∧
      (∀ i, s.len.toNat ≤ i → m.read? i = s.foPayload.read? i) ∧
      exec .endOk s = .next { s with
        foValid := true, foCode := s.code, foLen := s.len, foPayload := m
        event := .frame, quiet := false, phase := .seek, idx := 0 }

/-- R123: a bad checksum at the end marker; `frame_out` keeps the previous frame. -/
def Obligations.EndBadsumReportsChecksumMismatch : Prop :=
  (∀ c : TswCond, c.sumGood = false → decode (.tsw 0xE77 c) = .ok .endBadsum) ∧
  ∀ s : State, s.cfg.legal = true → s.phase = .cke → s.idx = 2 → (s.sum.toNat + s.ck.toNat) % 65536 ≠ 0 →
    exec .endBadsum s = .next { s with
      event := .err .checksumMismatch, quiet := true, phase := .seek, idx := 0 }

/-- R124: a byte other than `END` at the end-marker position, whatever the checksum; it is re-examined. -/
def Obligations.EndBadmarkReexaminesItsByte : Prop :=
  (∀ (w : BitVec 12) (c : TswCond), w &&& 0xF00 = 0xE00 → w ≠ 0xE77 →
    decode (.tsw w c) = .ok (.endBadmark (w.extractLsb' 0 8))) ∧
  ∀ (s : State) (b : Byte), s.cfg.legal = true → s.phase = .cke → s.idx = 2 → b ≠ 0x77 →
    (b ≠ 0xDD → exec (.endBadmark b) s = .next { s with
      event := .err .badEnd, quiet := true, phase := .seek, idx := 0 }) ∧
    (b = 0xDD → exec (.endBadmark b) s = .next { s with
      event := .err .badEnd, quiet := true, phase := .hdr, idx := 0, sum := 0, entered := true })

/-- R71, R112: the transition every byte selects in every state of R27. -/
def Obligations.EveryReachableStateSelectsItsTransition : Prop :=
  ∀ (s : State) (b : Byte), s.srInv → selectTransition s b = .ok (
    match s.phase with
    | .seek => if b = 0xDD then .seekStart else .seekJunk b
    | .hdr => if s.idx = 0 then .hdrCode b
              else if s.cfg.maxPayload < b.toNat then .hdrLenBad b else .hdrLenOk b
    | .pay => if s.idx.toNat + 1 = s.len.toNat then .payLast b else .payByte b
    | .cke => if s.idx = 0 then .ckHi b else if s.idx = 1 then .ckLo b
              else if b ≠ 0x77 then .endBadmark b
              else if (s.sum.toNat + s.ck.toNat) % 65536 = 0 then .endOk else .endBadsum)

/-- MODEL'S CHOICE (assumption log 1): a byte transition, or TIMEOUT_ABANDON, that the state does not select is refused.
It rests on R112, which gives a transition no effect where it is not selected. -/
def Obligations.UnselectedTransitionIsRefused : Prop :=
  (∀ (s : State) (i : Instr), s.cfg.legal = true → i.format = .tsw → (∀ b, selectTransition s b ≠ .ok i) →
    exec i s = .refused .notSelected) ∧
  ∀ s : State, s.cfg.legal = true → (s.phase = .seek ∨ s.timer < s.cfg.timeout) →
    exec .timeoutAbandon s = .refused .notSelected

/-! ### Laws of the Stream Reassembler -/

/-- R136, R141: after every error event of a byte cycle (for CYC_IDLE and CYC_TICK see
`IdleCycleChangesNothingUnlessElapsed` and `TickCycleCountsInAFrame`) the SR is in `SEEK`, or in `HDR` if the byte was `START`, with
`idx` 0 and `quiet` 1; `code`, `len`, `ck`, `buf` and `frame_out` keep what they held, and so does `sum` unless a new
frame began. -/
def Obligations.ErrorEventLeavesTheFrameRegisters : Prop :=
  ∀ (s t : State) (tick : Bool) (b : Byte) (e : FrameError), s.Inv →
    exec (.cycByte tick b) s = .next t → t.event = .err e →
    t.quiet = true ∧ t.idx = 0 ∧ ((t.phase = .seek ∧ t.sum = s.sum) ∨ (t.phase = .hdr ∧ b = 0xDD)) ∧
    t.code = s.code ∧ t.len = s.len ∧ t.ck = s.ck ∧ t.buf = s.buf ∧
    t.foValid = s.foValid ∧ t.foCode = s.foCode ∧ t.foLen = s.foLen ∧ t.foPayload = s.foPayload

/-- R24: no operation but a reset changes `frame_out` unless its event is `FRAME`; a reset writes `fo_payload` neither. -/
def Obligations.FrameOutChangesOnlyWithAFrame : Prop :=
  ∀ (i : Instr) (s t : State), exec i s = .next t → t.event ≠ .frame →
    t.foPayload = s.foPayload ∧
    (i ≠ .cycReset → t.foValid = s.foValid ∧ t.foCode = s.foCode ∧ t.foLen = s.foLen)

/-- R125: the timer after each kind of cycle. In a byte cycle the start marker was accepted exactly where the next
state is at the first byte of a header. -/
def Obligations.TimerFollowsItsUpdateRule : Prop :=
  ∀ (s t : State), s.Inv →
    (exec .cycIdle s = .next t → t.timer = if t.phase = .seek then 0 else s.timer) ∧
    (exec .cycTick s = .next t → t.timer = if t.phase = .seek then 0 else min (s.timer + 1) s.cfg.timeout) ∧
    (∀ (tick : Bool) (b : Byte), exec (.cycByte tick b) s = .next t →
      t.timer = if t.phase = .seek ∨ (t.phase = .hdr ∧ t.idx = 0) then 0
                else if tick = true then min (s.timer + 1) s.cfg.timeout else s.timer)

/-- R23: a cycle's FrameError sets `quiet`, an emitted frame and a reset clear it, and nothing else changes it. -/
def Obligations.QuietFollowsTheEvents : Prop :=
  ∀ (i : Instr) (s t : State), i.format = .ciw → exec i s = .next t →
    (t.event = .frame → t.quiet = false) ∧ (∀ e, t.event = .err e → t.quiet = true) ∧
    (i = .cycReset → t.quiet = false) ∧ (i ≠ .cycReset → t.event = .none → t.quiet = s.quiet)

/-- R127: the SR agrees with `validate`. `p` is what was fed from `SEEK` without an event, `b` the byte at which the
first event is raised. -/
def Obligations.ReassemblerAgreesWithValidate : Prop :=
  ∀ (s u t : State) (p : Bytes) (b : Byte), s.Inv → s.phase = .seek → p.head? = some 0xDD →
    runWords 0 (p.map byteWord) s = .next ([], u) → exec (.cycByte false b) u = .next t → t.event ≠ .none →
    (t.event = .frame ↔ ∃ f, validateFrame s.cfg.maxPayload (p ++ [b]) = .ok f) ∧
    (∀ f, validateFrame s.cfg.maxPayload (p ++ [b]) = .ok f → t.foValid = true ∧ foFrame t = f) ∧
    (t.event = .err .checksumMismatch ↔
      validateFrame s.cfg.maxPayload (p ++ [b]) = .err .checksumMismatch) ∧
    (t.event = .err .badEnd ↔ p.length = ((p ++ [b]).getD 2 0).toNat + 5 ∧ b ≠ 0x77) ∧
    (t.event = .err .lengthMismatch ↔ p.length = 2 ∧ s.cfg.maxPayload < b.toNat) ∧
    p.length ≤ ((p ++ [b]).getD 2 0).toNat + 5

/-- R128: the deadline of a frame that passes every check. `w0` presents the start marker; `ws` holds the cycles after
it, with any gaps and ticks, that present the frame's further bytes but the last; `w1` presents the last byte. With
fewer than `TIMEOUT` ticks in `ws` the frame is emitted; where a cycle `w` carries the `TIMEOUT`-th tick, the next
cycle raises `Timeout`. -/
def Obligations.DeadlineDecidesTheFrame : Prop :=
  ∀ (s : State) (c : Byte) (p : Bytes) (w0 : BitVec 11) (ws : List (BitVec 11)),
    s.Inv → s.phase = .seek → p.length ≤ s.cfg.maxPayload →
    ciwRst w0 = false → ciwValid w0 = true → ciwByte w0 = 0xDD → (∀ w ∈ ws, ciwRst w = false) →
    (ws.filter ciwTick).length < s.cfg.timeout →
    (∀ w1 : BitVec 11, ciwRst w1 = false → ciwValid w1 = true → ciwByte w1 = 0x77 →
      [0xDD] ++ presentedBytes ws ++ [0x77] = frameOf c p →
      ∃ u, runWords 0 ([w0] ++ ws ++ [w1]) s = .next ([(ws.length + 1, .frame)], u) ∧
        foFrame u = { code := c, len := BitVec.ofNat 8 p.length, payload := p }) ∧
    (∀ w w1 : BitVec 11, ciwRst w = false → ciwRst w1 = false →
      ciwTick w = true → (ws.filter ciwTick).length + 1 = s.cfg.timeout →
      (∃ rest, rest ≠ [] ∧ [0xDD] ++ presentedBytes (ws ++ [w]) ++ rest = frameOf c p) →
      ∃ u, runWords 0 ([w0] ++ ws ++ [w, w1]) s = .next ([(ws.length + 2, .err .timeout)], u))

/-- R129: an idle cycle put before another cycle of a reset-free sequence changes neither the events nor the state
after the last cycle (the event output of which is the last cycle's own). At the very end of a sequence an idle cycle
may itself abandon, so at least one cycle follows it here. -/
def Obligations.IdleCyclesAreNeutral : Prop :=
  ∀ (s t : State) (ws vs : List (BitVec 11)) (w : BitVec 11) (evs : List (Nat × Event)),
    s.Inv → (∀ v ∈ ws ++ w :: vs, ciwRst v = false) →
    runWords 0 (ws ++ w :: vs) s = .next (evs, t) →
    ∃ evs' t', runWords 0 (ws ++ 0x000 :: w :: vs) s = .next (evs', t') ∧
      evs'.map Prod.snd = evs.map Prod.snd ∧ { t' with event := .none } = { t with event := .none }

/-! ### Functions -/

/-- R13: a function writes no register and reads none: its result depends on its operands and the configuration alone.
It answers for all operands but those of a refused `encodeCommand` and a record that is no `ValidatedFrame` (R97). -/
def Obligations.FunctionsReadAndWriteNoRegister : Prop :=
  ∀ (i : Instr) (s : State), i.format = .fop → s.cfg.legal = true →
    (∀ c p, i = .encodeCommand c p → p.length ≤ s.cfg.maxPayload) →
    (∀ f, i = .slicePayload f → f.payload.length = f.len.toNat ∧ f.len.toNat ≤ s.cfg.maxPayload) →
    ∃ r, ∀ s' : State, s'.cfg = s.cfg → exec i s' = .next { s' with fuResult := some r }

/-- R81, R82: selectors 0x1 and 0x2, with any operand, and the bit map in both directions. -/
def Obligations.ProtectionFlagsFollowTheBitMap : Prop :=
  (∀ raw, ∃ o, decode (.fop 0x1 o) = .ok (.decodeProt raw)) ∧
  (∀ f, ∃ o, decode (.fop 0x2 o) = .ok (.encodeProt f)) ∧
  (∀ (raw : U16) (s : State), exec (.decodeProt raw) s = .next { s with fuResult := some (.decodeProt {
    cellOv := raw.getLsbD 0, cellUv := raw.getLsbD 1, packOv := raw.getLsbD 2, packUv := raw.getLsbD 3
    chgOt := raw.getLsbD 4, chgUt := raw.getLsbD 5, dsgOt := raw.getLsbD 6, dsgUt := raw.getLsbD 7
    chgOc := raw.getLsbD 8, dsgOc := raw.getLsbD 9, shortCircuit := raw.getLsbD 10, icError := raw.getLsbD 11
    fetLock := raw.getLsbD 12, reserved := raw.extractLsb' 13 3 }) }) ∧
  ∀ (f : ProtectionFlags) (s : State), ∃ raw : U16,
    exec (.encodeProt f) s = .next { s with fuResult := some (.encodeProt raw) } ∧
    raw.getLsbD 0 = f.cellOv ∧ raw.getLsbD 1 = f.cellUv ∧ raw.getLsbD 2 = f.packOv ∧ raw.getLsbD 3 = f.packUv ∧
    raw.getLsbD 4 = f.chgOt ∧ raw.getLsbD 5 = f.chgUt ∧ raw.getLsbD 6 = f.dsgOt ∧ raw.getLsbD 7 = f.dsgUt ∧
    raw.getLsbD 8 = f.chgOc ∧ raw.getLsbD 9 = f.dsgOc ∧ raw.getLsbD 10 = f.shortCircuit ∧
    raw.getLsbD 11 = f.icError ∧ raw.getLsbD 12 = f.fetLock ∧ raw.extractLsb' 13 3 = f.reserved

/-- R85, R86: selectors 0x3 and 0x4, with any operand, and the bit map in both directions. -/
def Obligations.FetStatusFollowsTheBitMap : Prop :=
  (∀ raw, ∃ o, decode (.fop 0x3 o) = .ok (.decodeFet raw)) ∧
  (∀ f, ∃ o, decode (.fop 0x4 o) = .ok (.encodeFet f)) ∧
  (∀ (raw : Byte) (s : State), exec (.decodeFet raw) s = .next { s with fuResult := some (.decodeFet {
    chgEn := raw.getLsbD 0, dsgEn := raw.getLsbD 1, reserved := raw.extractLsb' 2 6 }) }) ∧
  ∀ (f : FetStatus) (s : State), ∃ raw : Byte,
    exec (.encodeFet f) s = .next { s with fuResult := some (.encodeFet raw) } ∧
    raw.getLsbD 0 = f.chgEn ∧ raw.getLsbD 1 = f.dsgEn ∧ raw.extractLsb' 2 6 = f.reserved

/-- R83, R87: both flag codecs lose nothing in either direction, reserved bits included. -/
def Obligations.FlagCodecsRoundTrip : Prop :=
  (∀ x, encodeProtection (decodeProtection x) = x) ∧ (∀ f, decodeProtection (encodeProtection f) = f) ∧
  (∀ x, encodeFetStatus (decodeFetStatus x) = x) ∧ ∀ f, decodeFetStatus (encodeFetStatus f) = f

/-- R89, with the layout of R62: the three checks in their order, and every field of the record. `b i` is byte `i` of
the payload as a number. -/
def Obligations.BasicInfoIsDecodedFieldByField : Prop :=
  (∀ p, ∃ o, decode (.fop 0x5 o) = .ok (.decodeBasic p)) ∧
  ∀ (s : State) (p : Bytes) (b : Nat → Nat), (∀ i, b i = (p.getD i 0).toNat) →
    (p.length < 23 →
      exec (.decodeBasic p) s = .next { s with fuResult := some (.decodeBasic (.err .tooShort)) }) ∧
    (23 ≤ p.length → (8 < b 21 ∨ 4 < b 22) →
      exec (.decodeBasic p) s = .next { s with fuResult := some (.decodeBasic (.err .invalidCount)) }) ∧
    (23 ≤ p.length → b 21 ≤ 8 → b 22 ≤ 4 → p.length < 23 + 2 * b 22 →
      exec (.decodeBasic p) s = .next { s with fuResult := some (.decodeBasic (.err .tooShort)) }) ∧
    (b 21 ≤ 8 → b 22 ≤ 4 → 23 + 2 * b 22 ≤ p.length → ∃ r : BasicInfo,
      exec (.decodeBasic p) s = .next { s with fuResult := some (.decodeBasic (.ok r)) } ∧
      r.voltage.toNat = b 0 * 256 + b 1 ∧
      r.current = (b 2 * 256 + b 3 : Nat) - (if 128 ≤ b 2 then 65536 else 0 : Int) ∧
      r.remCapacity.toNat = b 4 * 256 + b 5 ∧ r.typCapacity.toNat = b 6 * 256 + b 7 ∧
      r.cycles.toNat = b 8 * 256 + b 9 ∧ r.prodDate.toNat = b 10 * 256 + b 11 ∧
      r.balanceStatus.toNat = b 12 * 16777216 + b 13 * 65536 + b 14 * 256 + b 15 ∧
      (∃ raw : U16, raw.toNat = b 16 * 256 + b 17 ∧ r.prot = decodeProtection raw) ∧
      r.softwareVersion.toNat = b 18 ∧ r.remCapPct.toNat = b 19 ∧
      (∃ raw : Byte, raw.toNat = b 20 ∧ r.fet = decodeFetStatus raw) ∧
      r.cellCnt = b 21 ∧ r.ntcCnt = b 22 ∧
      r.temps.map BitVec.toNat = (List.range (b 22)).map fun k => b (23 + 2 * k) * 256 + b (24 + 2 * k))

/-- R91: bit `i` of the balance word for the eight cells, a refusal for the reserved bits. -/
def Obligations.BalancingReadsTheCellBits : Prop :=
  ∀ (v : U32) (i : Nat),
    (i < 8 → balancing v i = .ok (decide (v.toNat / 2 ^ i % 2 = 1))) ∧
    (8 ≤ i → balancing v i = .error .reservedBalanceBit)

/-- R93: the two checks in their order, and the readings. -/
def Obligations.CellVoltagesAreDecodedInOrder : Prop :=
  (∀ p n, ∃ o, decode (.fop 0x6 o) = .ok (.decodeCells p n)) ∧
  ∀ (s : State) (p : Bytes) (n : Byte),
    (8 < n.toNat →
      exec (.decodeCells p n) s = .next { s with fuResult := some (.decodeCells (.err .invalidCount)) }) ∧
    (n.toNat ≤ 8 → p.length < 2 * n.toNat →
      exec (.decodeCells p n) s = .next { s with fuResult := some (.decodeCells (.err .tooShort)) }) ∧
    (n.toNat ≤ 8 → 2 * n.toNat ≤ p.length → ∃ l : List U16,
      exec (.decodeCells p n) s = .next { s with fuResult := some (.decodeCells (.ok l)) } ∧
      l.map BitVec.toNat =
        (List.range n.toNat).map fun i => (p.getD (2 * i) 0).toNat * 256 + (p.getD (2 * i + 1) 0).toNat)

/-- R94: bits 15:9, 8:5 and 4:0, with no range check. -/
def Obligations.DateIsUnpackedByItsFields : Prop :=
  (∀ d, ∃ o, decode (.fop 0x7 o) = .ok (.unpackDate d)) ∧
  ∀ (s : State) (d : U16),
    exec (.unpackDate d) s = .next { s with
      fuResult := some (.unpackDate (2000 + d.toNat / 512) (d.toNat / 32 % 16) (d.toNat % 32)) }

/-- R95: the two's complement of the sum of the region's bytes. -/
def Obligations.ChecksumIsTheTwosComplementSum : Prop :=
  (∀ r, ∃ o, decode (.fop 0x8 o) = .ok (.checksum r)) ∧
  ∀ (s : State) (r : Bytes), ∃ k : U16,
    exec (.checksum r) s = .next { s with fuResult := some (.checksum k) } ∧
    k.toNat = (65536 - (r.map BitVec.toNat).sum % 65536) % 65536

/-- R96: no region of a frame wraps the sum, and the check holds exactly for the checksum. -/
def Obligations.ChecksumCheckHoldsExactlyForTheChecksum : Prop :=
  (∀ (c l : Byte) (p : Bytes), p.length ≤ 255 → sumBytes ([c, l] ++ p) ≤ 65535) ∧
  ∀ (r : Bytes) (k : U16), (sumBytes r + k.toNat) % 65536 = 0 ↔ k = checksumOf r

/-- R98: the two checks in their order; every code byte is accepted. -/
def Obligations.HeaderIsParsedInOrder : Prop :=
  (∀ b0 b1 b2, ∃ o, decode (.fop 0xC o) = .ok (.parseHeader b0 b1 b2)) ∧
  ∀ (s : State) (b0 b1 b2 : Byte), s.cfg.legal = true →
    (b0 ≠ 0xDD → exec (.parseHeader b0 b1 b2) s =
      .next { s with fuResult := some (.parseHeader (.err .badStart)) }) ∧
    (b0 = 0xDD → s.cfg.maxPayload < b2.toNat → exec (.parseHeader b0 b1 b2) s =
      .next { s with fuResult := some (.parseHeader (.err .lengthMismatch)) }) ∧
    (b0 = 0xDD → b2.toNat ≤ s.cfg.maxPayload → exec (.parseHeader b0 b1 b2) s =
      .next { s with fuResult := some (.parseHeader (.ok (b1, b2))) })

/-- R99: the result of `validate`, its checks in their order. -/
def Obligations.ValidateChecksInOrder : Prop :=
  (∀ bs, ∃ o, decode (.fop 0x9 o) = .ok (.validate bs)) ∧
  ∀ (s : State) (bs : Bytes) (l : Nat), s.cfg.legal = true → l = (bs.getD 2 0).toNat →
    exec (.validate bs) s = .next { s with fuResult := some (.validate (
      if bs.length = 0 ∨ bs.getD 0 0 ≠ 0xDD then .err .badStart
      else if bs.length < 6 ∨ s.cfg.maxPayload < l ∨ bs.length ≠ l + 6 then .err .lengthMismatch
      else if bs.getD (bs.length - 1) 0 ≠ 0x77 then .err .badEnd
      else if ((((bs.drop 1).take (l + 2)).map BitVec.toNat).sum
            + (bs.getD (l + 3) 0).toNat * 256 + (bs.getD (l + 4) 0).toNat) % 65536 ≠ 0 then .err .checksumMismatch
      else .ok { code := bs.getD 1 0, len := bs.getD 2 0, payload := (bs.drop 3).take l })) }

/-- R55, R58, R97, R99: `validate` accepts exactly the byte sequences that are frames, and gives back their parts. -/
def Obligations.ValidateAcceptsExactlyTheFrames : Prop :=
  ∀ (m : Nat) (bs : Bytes) (f : ValidatedFrame), validateFrame m bs = .ok f ↔
    f.payload.length = f.len.toNat ∧ f.len.toNat ≤ m ∧
    ∃ h l : Byte, bs = [0xDD, f.code, f.len] ++ f.payload ++ [h, l, 0x77] ∧
      (f.code.toNat + f.len.toNat + (f.payload.map BitVec.toNat).sum + h.toNat * 256 + l.toNat) % 65536 = 0

/-- R101, with the layout of R55 and the checksum of R95: the frame of a payload that fits, and the refusal of one that
does not. -/
def Obligations.EncodeCommandBuildsTheFrame : Prop :=
  (∀ c p, ∃ o, decode (.fop 0xA o) = .ok (.encodeCommand c p)) ∧
  ∀ (s : State) (c : Byte) (p : Bytes), s.cfg.legal = true →
    (p.length ≤ s.cfg.maxPayload → ∃ n h l : Byte,
      exec (.encodeCommand c p) s =
        .next { s with fuResult := some (.encodeCommand ([0xDD, c, n] ++ p ++ [h, l, 0x77])) } ∧
      n.toNat = p.length ∧
      h.toNat * 256 + l.toNat =
        (65536 - (c.toNat + n.toNat + (p.map BitVec.toNat).sum) % 65536) % 65536) ∧
    (s.cfg.maxPayload < p.length → exec (.encodeCommand c p) s = .refused .payloadTooLong)

/-- R102 (a): `validate` of what `encodeCommand` built gives back the code and the payload. -/
def Obligations.EncodedCommandsValidate : Prop :=
  ∀ (s t : State) (c : Byte) (p f : Bytes), s.cfg.legal = true → p.length ≤ s.cfg.maxPayload →
    exec (.encodeCommand c p) s = .next t → t.fuResult = some (.encodeCommand f) →
    exec (.validate f) s = .next { s with
      fuResult := some (.validate (.ok { code := c, len := BitVec.ofNat 8 p.length, payload := p })) }

/-- R102 (b): any one flipped bit of a valid frame is detected, with the error of the place it stands in. -/
def Obligations.EverySingleBitErrorIsDetected : Prop :=
  ∀ (m : Nat) (bs : Bytes) (f : ValidatedFrame) (i k : Nat), m ≤ 255 → validateFrame m bs = .ok f →
    i < bs.length → k < 8 →
    validateFrame m (bs.set i (bs.getD i 0 ^^^ BitVec.ofNat 8 (2 ^ k))) =
      .err (if i = 0 then .badStart else if i = 2 then .lengthMismatch
            else if i + 1 = bs.length then .badEnd else .checksumMismatch)

/-- R103: the kind comes from the code alone, and the payload is passed on. The operand is a validated frame: a record
with `len(payload) = len ≤ MAX_PAYLOAD` (R97). That any other record is refused is the MODEL'S CHOICE (assumption log 14,
DEDUCED): R103 names no error, and no rule names the slicer among the refusals. -/
def Obligations.SliceKindComesFromTheCode : Prop :=
  (∀ f : ValidatedFrame, f.payload.length = f.len.toNat → ∃ o, decode (.fop 0xB o) = .ok (.slicePayload f)) ∧
  ∀ (s : State) (f : ValidatedFrame), s.cfg.legal = true →
    (f.payload.length = f.len.toNat → f.len.toNat ≤ s.cfg.maxPayload →
      exec (.slicePayload f) s = .next { s with fuResult := some (.slicePayload
        (if f.code.toNat = 3 then .basic else if f.code.toNat = 4 then .cells else .other) f.payload) }) ∧
    (f.payload.length ≠ f.len.toNat ∨ s.cfg.maxPayload < f.len.toNat →
      exec (.slicePayload f) s = .refused .operandOutsideDomain)

/-- R97: both producers, `validate` and the SR, give only validated frames, so the slicer answers for each of them. -/
def Obligations.ProducedFramesAreValidatedFrames : Prop :=
  (∀ (s t : State) (bs : Bytes) (f : ValidatedFrame), s.cfg.legal = true → exec (.validate bs) s = .next t →
    t.fuResult = some (.validate (.ok f)) → f.payload.length = f.len.toNat ∧ f.len.toNat ≤ t.cfg.maxPayload ∧
      exec (.slicePayload f) t =
        .next { t with fuResult := some (.slicePayload (sliceKindOf f.code) f.payload) }) ∧
  ∀ s : State, s.Inv → s.foValid = true →
    (foFrame s).payload.length = (foFrame s).len.toNat ∧ (foFrame s).len.toNat ≤ s.cfg.maxPayload ∧
    exec (.slicePayload (foFrame s)) s =
      .next { s with fuResult := some (.slicePayload (sliceKindOf s.foCode) (foBytes s)) }

/-! ### Outputs -/

/-- R28, R73, R75: what the event outputs show for each event; the other codes are never driven. -/
def Obligations.EventOutputsFollowTheCodes : Prop :=
  ∀ s : State,
    (s.event = .none → evKind s = 0 ∧ evErr s = 0) ∧ (s.event = .frame → evKind s = 1 ∧ evErr s = 0) ∧
    (s.event = .err .badStart → evKind s = 2 ∧ evErr s = 1) ∧
    (s.event = .err .badEnd → evKind s = 2 ∧ evErr s = 2) ∧
    (s.event = .err .checksumMismatch → evKind s = 2 ∧ evErr s = 3) ∧
    (s.event = .err .lengthMismatch → evKind s = 2 ∧ evErr s = 4) ∧
    (s.event = .err .timeout → evKind s = 2 ∧ evErr s = 5) ∧
    evKind s ≠ 3 ∧ evErr s ≠ 6 ∧ evErr s ≠ 7

/-- R29: a read within the emitted length gives the byte, any other read gives 0x00. -/
def Obligations.ReadPortShowsTheEmittedBytes : Prop :=
  ∀ (s : State) (a : Byte),
    (s.foValid = true → a.toNat < s.foLen.toNat → ∀ v, s.foPayload.read? a.toNat = some v → foRdData s a = v) ∧
    (s.foValid = false ∨ s.foLen.toNat ≤ a.toNat → foRdData s a = 0)

/-- R104: the views of `frame_out`. -/
def Obligations.ViewsDecodeFrameOut : Prop :=
  ∀ (s : State) (n : Byte),
    (s.foValid = false → viewKind s = 0 ∧ viewBasic s = none ∧ viewCells s n = none) ∧
    (s.foValid = true → s.foCode = 0x03 →
      viewKind s = 1 ∧ viewBasic s = some (decodeBasicInfo (foBytes s)) ∧ viewCells s n = none) ∧
    (s.foValid = true → s.foCode = 0x04 →
      viewKind s = 2 ∧ viewBasic s = none ∧ viewCells s n = some (decodeCellVoltages (foBytes s) n)) ∧
    (s.foValid = true → s.foCode ≠ 0x03 → s.foCode ≠ 0x04 →
      viewKind s = 3 ∧ viewBasic s = none ∧ viewCells s n = none) ∧
    (foBytes s).length = s.foLen.toNat ∧
    ∀ i v, i < s.foLen.toNat → s.foPayload.read? i = some v → (foBytes s)[i]? = some v

/-! ### The step -/

/-- A step runs the operation that the host's first move selects, on the state without that move: a cycle's operation in
the held configuration, a reset with the configuration it shows, a function with its operands. With no move left it
runs an idle cycle, which is the MODEL'S CHOICE (assumption logs 2, 3 and 6). -/
def Obligations.StepRunsTheDecodedOperation : Prop :=
  ∀ (s : State) (rest : List HostMove),
    (s.moves = [] → step s = exec .cycIdle s) ∧
    (∀ ports : CyclePorts, s.moves = .cycle ports :: rest → s.cfg.legal = true → ports.params = s.cfg →
      step s = exec (decodeCiw ports.ciw) { s with moves := rest }) ∧
    (∀ ports : CyclePorts, s.moves = .cycle ports :: rest → ports.params.legal = true →
      ports.ciw.getLsbD 10 = true → step s = exec .cycReset { s with moves := rest, cfg := ports.params }) ∧
    (∀ (fop : BitVec 4) (ops : FuOperands) (i : Instr), s.moves = .call fop ops :: rest →
      decode (.fop fop ops) = .ok i → step s = exec i { s with moves := rest })

/-- R8, R72, R143, R151: the refusals of reserved selectors and of configurations that are illegal or that change
outside reset, at the move and in the operations that read the configuration (the model's choice, assumption log 6; that
the slicer reads it is assumption log 14). -/
def Obligations.ReservedSelectorsAndBadConfigurationsAreRefused : Prop :=
  (∀ (s : State) (rest : List HostMove) (fop : BitVec 4) (ops : FuOperands),
    s.moves = .call fop ops :: rest → (fop = 0x0 ∨ fop = 0xD ∨ fop = 0xE ∨ fop = 0xF) →
    step s = .refused .reservedSelector) ∧
  (∀ (s : State) (rest : List HostMove) (ports : CyclePorts), s.moves = .cycle ports :: rest →
    (ports.params.timeout = 0 ∨ 65535 < ports.params.timeout ∨ 255 < ports.params.maxPayload →
      step s = .refused .illegalConfiguration) ∧
    (1 ≤ ports.params.timeout → ports.params.timeout ≤ 65535 → ports.params.maxPayload ≤ 255 →
      ports.ciw.getLsbD 10 = false → ports.params ≠ s.cfg → step s = .refused .configurationChanged)) ∧
  ∀ s : State, s.cfg.timeout = 0 ∨ 65535 < s.cfg.timeout ∨ 255 < s.cfg.maxPayload →
    (∀ i : Instr, i ≠ .cycReset → i.format ≠ .fop → exec i s = .refused .illegalConfiguration) ∧
    (∀ bs, exec (.validate bs) s = .refused .illegalConfiguration) ∧
    (∀ c p, exec (.encodeCommand c p) s = .refused .illegalConfiguration) ∧
    (∀ f, exec (.slicePayload f) s = .refused .illegalConfiguration) ∧
    ∀ b0 b1 b2, exec (.parseHeader b0 b1 b2) s = .refused .illegalConfiguration

/-! ### Encoding -/

/-- Words written out from R70, R72, R79 and R112 decode to the operations they stand for. -/
def Obligations.WordsOfTheSpecDecode : Prop :=
  decode (.ciw 0x400) = .ok .cycReset ∧ decode (.ciw 0x377) = .ok (.cycByte true 0x77) ∧
  decode (.srCondition 0x000 true) = .ok .timeoutAbandon ∧
  decode (.tsw 0x0DD ⟨255, true⟩) = .ok .seekStart ∧ decode (.tsw 0x511 ⟨16, true⟩) = .ok (.hdrLenBad 0x11) ∧
  decode (.tsw 0x90C ⟨255, true⟩) = .ok (.payLast 0x0C) ∧ decode (.tsw 0xD2A ⟨255, true⟩) = .ok (.ckLo 0x2A) ∧
  decode (.tsw 0xE77 ⟨255, false⟩) = .ok .endBadsum ∧ decode (.fop 0x8 FuOperands.zero) = .ok (.checksum []) ∧
  decode (.fop 0xD FuOperands.zero) = .error .reservedFop

/-- Decode and encode agree: every well-formed operation, with every operand, is read back from its selector. -/
def Obligations.DecodeInvertsEncode : Prop := ∀ i : Instr, i.wf = true → decode (encode i) = .ok i

/-- The decoder gives well-formed operations only, each of the format of its selector (R70, R71, R72, R111, R112). -/
def Obligations.DecodedOperationsAreWellFormed : Prop :=
  ∀ (sel : Selector) (i : Instr), decode sel = .ok i → i.wf = true ∧ i.format = sel.format

/-! ### Invariants -/

/-- The reset state meets the invariant and its two companions (R27, R39, R20). -/
def Obligations.ResetMeetsTheInvariants : Prop :=
  State.reset.Inv ∧ State.reset.allWritten ∧ State.reset.sumTracks

/-- R27: every step keeps the invariant, from every state that meets it. -/
def Obligations.StepKeepsTheInvariant : Prop := ∀ s t : State, s.Inv → step s = .next t → t.Inv

/-- R39: from states that meet it, every step keeps that all bytes the SR or the host reads have been written; so no
output and no emitted frame rests on a byte nothing wrote. -/
def Obligations.StepKeepsAllReadBytesWritten : Prop :=
  ∀ s t : State, s.Inv → s.allWritten → step s = .next t → t.allWritten

/-- R20, R96: every step keeps that `sum` is the true sum of the region bytes received, without wrapping. -/
def Obligations.StepKeepsTheSum : Prop :=
  ∀ s t : State, s.Inv → s.sumTracks → step s = .next t → t.sumTracks

/-- R130, R133: from every state of the invariant a step never faults, and a cycle that shows the held configuration
always has a next state. That a step with no move left has one too is the MODEL'S CHOICE of an idle cycle there
(assumption log 3). -/
def Obligations.StepNeverFaults : Prop :=
  ∀ s : State, s.Inv →
    (∀ r, step s ≠ .fault r) ∧ (s.moves = [] → ∃ t, step s = .next t) ∧
    ∀ ports rest, s.moves = .cycle ports :: rest → ports.params = s.cfg → ∃ t, step s = .next t

/-- R33: no output and no later decision depends on a don't-care byte: states that agree on all else show the same
outputs, and step to states that agree again. -/
def Obligations.DontCareBytesAreNeverRead : Prop :=
  ∀ s s' : State, s.Inv → s'.Inv → AgreeOnDefined s s' →
    (∀ ports, outputs s ports = outputs s' ports) ∧
    ∀ t, step s = .next t → ∃ t', step s' = .next t' ∧ AgreeOnDefined t t'
end

