-- ==== Sys2Proof/Laws/Bits.lean ====
section
/-! SUPPORT. What the bit-field helpers compute: the value of each packed word as a number, and its fields back. Later
proofs cite these and never unfold a concatenation. -/

namespace Sys2Proof

/-! ### The transition select word (R71) -/

theorem packTsw_toNat (p q : BitVec 2) (b : Byte) :
    (packTsw p q b).toNat = p.toNat * 1024 + q.toNat * 256 + b.toNat := by
  have := b.isLt
  have := q.isLt
  simp only [packTsw, BitVec.toNat_cast, BitVec.toNat_append]
  rw [← Nat.shiftLeft_add_eq_or_of_lt (by omega), ← Nat.shiftLeft_add_eq_or_of_lt (by omega)]
  simp only [Nat.shiftLeft_eq]; omega

@[simp] theorem tswPhase_pack (p q : BitVec 2) (b : Byte) : tswPhase (packTsw p q b) = p := by
  apply BitVec.eq_of_toNat_eq
  have := b.isLt
  have := q.isLt
  have := p.isLt
  simp only [tswPhase, BitVec.extractLsb'_toNat, packTsw_toNat, Nat.shiftRight_eq_div_pow]
  omega

@[simp] theorem tswSub_pack (p q : BitVec 2) (b : Byte) : tswSub (packTsw p q b) = q := by
  apply BitVec.eq_of_toNat_eq
  have := b.isLt
  have := q.isLt
  simp only [tswSub, BitVec.extractLsb'_toNat, packTsw_toNat, Nat.shiftRight_eq_div_pow]
  omega

@[simp] theorem tswByte_pack (p q : BitVec 2) (b : Byte) : tswByte (packTsw p q b) = b := by
  apply BitVec.eq_of_toNat_eq
  have := b.isLt
  simp only [tswByte, BitVec.extractLsb'_toNat, packTsw_toNat, Nat.shiftRight_eq_div_pow]
  omega

theorem packTsw_inj {p q p' q' : BitVec 2} {b b' : Byte} :
    packTsw p q b = packTsw p' q' b' ↔ p = p' ∧ q = q' ∧ b = b' := by
  refine ⟨fun h => ?_, fun ⟨h1, h2, h3⟩ => by rw [h1, h2, h3]⟩
  refine ⟨?_, ?_, ?_⟩
  · simpa using congrArg tswPhase h
  · simpa using congrArg tswSub h
  · simpa using congrArg tswByte h

/-- A word is put together from its three fields, so a claim about all words is one about all fields. -/
theorem packTsw_fields (w : BitVec 12) : packTsw (tswPhase w) (tswSub w) (tswByte w) = w := by
  apply BitVec.eq_of_toNat_eq
  have := w.isLt
  simp only [packTsw_toNat, tswPhase, tswSub, tswByte, BitVec.extractLsb'_toNat, Nat.shiftRight_eq_div_pow]
  omega

theorem pack_and_F00 (p q : BitVec 2) (b : Byte) : packTsw p q b &&& 0xF00 = packTsw p q 0 := by
  apply BitVec.eq_of_getLsbD_eq
  intro i hi
  simp only [packTsw, BitVec.getLsbD_and, BitVec.getLsbD_cast, BitVec.getLsbD_append]
  interval_cases i <;> simp

theorem pack_and_C00 (p q : BitVec 2) (b : Byte) : packTsw p q b &&& 0xC00 = packTsw p 0 0 := by
  apply BitVec.eq_of_getLsbD_eq
  intro i hi
  simp only [packTsw, BitVec.getLsbD_and, BitVec.getLsbD_cast, BitVec.getLsbD_append]
  interval_cases i <;> simp

theorem pack_and_CFF (p q : BitVec 2) (b : Byte) : packTsw p q b &&& 0xCFF = packTsw p 0 b := by
  apply BitVec.eq_of_getLsbD_eq
  intro i hi
  simp only [packTsw, BitVec.getLsbD_and, BitVec.getLsbD_cast, BitVec.getLsbD_append]
  interval_cases i <;> simp

theorem pack_and_FFF (p q : BitVec 2) (b : Byte) : packTsw p q b &&& 0xFFF = packTsw p q b := by
  apply BitVec.eq_of_getLsbD_eq
  intro i hi
  simp only [BitVec.getLsbD_and]
  interval_cases i <;> simp

/-- A word that matches a row of mask 0xF00 has that row's phase and sub. -/
theorem fields_of_and_F00 {p q p' q' : BitVec 2} {b : Byte} (h : packTsw p q b &&& 0xF00 = packTsw p' q' 0) :
    p = p' ∧ q = q' := by
  rw [pack_and_F00, packTsw_inj] at h
  exact ⟨h.1, h.2.1⟩

/-- A row of mask 0xF00 matches the words of its phase and sub. -/
theorem tswHits_F00 (p q : BitVec 2) (b : Byte) (m : BitVec 12) :
    tswHits (packTsw p q b) m 0xF00 = decide (packTsw p q 0 = m) := by
  rw [tswHits, pack_and_F00]; rfl

theorem tswHits_C00 (p q : BitVec 2) (b : Byte) (m : BitVec 12) :
    tswHits (packTsw p q b) m 0xC00 = decide (packTsw p 0 0 = m) := by
  rw [tswHits, pack_and_C00]; rfl

theorem tswHits_CFF (p q : BitVec 2) (b : Byte) (m : BitVec 12) :
    tswHits (packTsw p q b) m 0xCFF = decide (packTsw p 0 b = m) := by
  rw [tswHits, pack_and_CFF]; rfl

theorem tswHits_FFF (p q : BitVec 2) (b : Byte) (m : BitVec 12) :
    tswHits (packTsw p q b) m 0xFFF = decide (packTsw p q b = m) := by
  rw [tswHits, pack_and_FFF]; rfl

/-! ### The cycle input word (R70) -/

theorem packCiw_toNat (r t v : Bool) (b : Byte) :
    (packCiw r t v b).toNat = r.toNat * 1024 + t.toNat * 512 + v.toNat * 256 + b.toNat := by
  have := b.isLt
  simp only [packCiw, BitVec.toNat_cast, BitVec.toNat_append, BitVec.toNat_ofBool]
  cases r <;> cases t <;> cases v <;>
    simp only [Bool.toNat_true, Bool.toNat_false] <;>
    rw [← Nat.shiftLeft_add_eq_or_of_lt (by omega)] <;> simp [Nat.shiftLeft_eq]

/-- A word is put together from its four fields. -/
theorem packCiw_fields (w : BitVec 11) : packCiw (ciwRst w) (ciwTick w) (ciwValid w) (ciwByte w) = w := by
  apply BitVec.eq_of_getLsbD_eq
  intro i hi
  simp only [packCiw, ciwRst, ciwTick, ciwValid, ciwByte, BitVec.getLsbD_cast, BitVec.getLsbD_append,
    BitVec.getLsbD_extractLsb', BitVec.getLsbD_ofBool]
  interval_cases i <;> simp

@[simp] theorem ciwRst_pack (r t v : Bool) (b : Byte) : ciwRst (packCiw r t v b) = r := by
  simp only [ciwRst, packCiw, BitVec.getLsbD_cast, BitVec.getLsbD_append]; simp

@[simp] theorem ciwTick_pack (r t v : Bool) (b : Byte) : ciwTick (packCiw r t v b) = t := by
  simp only [ciwTick, packCiw, BitVec.getLsbD_cast, BitVec.getLsbD_append]; simp

@[simp] theorem ciwValid_pack (r t v : Bool) (b : Byte) : ciwValid (packCiw r t v b) = v := by
  simp only [ciwValid, packCiw, BitVec.getLsbD_cast, BitVec.getLsbD_append]; simp

@[simp] theorem ciwByte_pack (r t v : Bool) (b : Byte) : ciwByte (packCiw r t v b) = b := by
  apply BitVec.eq_of_getLsbD_eq
  intro i hi
  simp only [ciwByte, packCiw, BitVec.getLsbD_extractLsb', BitVec.getLsbD_cast, BitVec.getLsbD_append]
  simp [hi]

namespace Machine

/-! ### Multi-byte fields (R11) -/

/-- R11's own formula for `be16`. -/
theorem be16_toNat (s : Bytes) (i : Nat) :
    (be16 s i).toNat = (byteAt s i).toNat * 256 + (byteAt s (i + 1)).toNat := by
  have := (byteAt s (i + 1)).isLt
  simp only [be16, BitVec.toNat_cast, BitVec.toNat_append]
  rw [← Nat.shiftLeft_add_eq_or_of_lt (by omega), Nat.shiftLeft_eq]

/-- R11's own formula for `be32`. -/
theorem be32_toNat (s : Bytes) (i : Nat) :
    (be32 s i).toNat = (be16 s i).toNat * 65536 + (be16 s (i + 2)).toNat := by
  have := (be16 s (i + 2)).isLt
  simp only [be32, BitVec.toNat_cast, BitVec.toNat_append]
  rw [← Nat.shiftLeft_add_eq_or_of_lt (by omega), Nat.shiftLeft_eq]

theorem setCkHi_toNat (ck : U16) (b : Byte) : (setCkHi ck b).toNat = b.toNat * 256 + ck.toNat % 256 := by
  simp only [setCkHi, BitVec.toNat_cast, BitVec.toNat_append, BitVec.extractLsb'_toNat]
  rw [← Nat.shiftLeft_add_eq_or_of_lt (by omega), Nat.shiftLeft_eq]
  simp

theorem setCkLo_toNat (ck : U16) (b : Byte) : (setCkLo ck b).toNat = ck.toNat / 256 * 256 + b.toNat := by
  have := b.isLt
  have := ck.isLt
  simp only [setCkLo, BitVec.toNat_cast, BitVec.toNat_append, BitVec.extractLsb'_toNat]
  rw [← Nat.shiftLeft_add_eq_or_of_lt (by omega), Nat.shiftLeft_eq, Nat.shiftRight_eq_div_pow]
  omega

theorem addByte_toNat (sum : U16) (b : Byte) : (addByte sum b).toNat = (sum.toNat + b.toNat) % 65536 := by
  have := b.isLt
  simp only [addByte, BitVec.toNat_add, BitVec.toNat_setWidth]
  omega

/-- `sext_16` is the two's complement reading. -/
theorem sext16_eq_toInt (v : U16) : sext16 v = v.toInt := by
  have := v.isLt
  rw [BitVec.toInt_eq_msb_cond, sext16, BitVec.msb_eq_getLsbD_last]
  split <;> simp

/-! ### Sums (R11) -/

@[simp] theorem sumBytes_nil : sumBytes [] = 0 := rfl

@[simp] theorem sumBytes_cons (b : Byte) (s : Bytes) : sumBytes (b :: s) = b.toNat + sumBytes s := by
  simp [sumBytes]

@[simp] theorem sumBytes_append (s t : Bytes) : sumBytes (s ++ t) = sumBytes s + sumBytes t := by
  simp [sumBytes]

theorem sumBytes_le (s : Bytes) : sumBytes s ≤ 255 * s.length := by
  induction s with
  | nil => simp
  | cons b s ih =>
    have := b.isLt
    simp only [sumBytes_cons, List.length_cons]
    omega

theorem phaseBits_inj {p q : Phase} (h : p.bits = q.bits) : p = q := by
  cases p <;> cases q <;> first | rfl | exact absurd h (by decide)

end Machine

end Sys2Proof
end

