-- ==== Sys2Proof/Laws/State.lean ====
section
/-! SUPPORT. What each state update does to each field: one lemma a field and update, true by `rfl`, so that no later
proof unfolds a record update. -/

namespace Sys2Proof.Machine

variable (s : State)

/-! ### `raiseFrameError` -/

@[simp] theorem raiseFrameError_phase (e : FrameError) : (raiseFrameError e s).phase = .seek := rfl
@[simp] theorem raiseFrameError_idx (e : FrameError) : (raiseFrameError e s).idx = 0 := rfl
@[simp] theorem raiseFrameError_code (e : FrameError) : (raiseFrameError e s).code = s.code := rfl
@[simp] theorem raiseFrameError_len (e : FrameError) : (raiseFrameError e s).len = s.len := rfl
@[simp] theorem raiseFrameError_buf (e : FrameError) : (raiseFrameError e s).buf = s.buf := rfl
@[simp] theorem raiseFrameError_sum (e : FrameError) : (raiseFrameError e s).sum = s.sum := rfl
@[simp] theorem raiseFrameError_ck (e : FrameError) : (raiseFrameError e s).ck = s.ck := rfl
@[simp] theorem raiseFrameError_timer (e : FrameError) : (raiseFrameError e s).timer = s.timer := rfl
@[simp] theorem raiseFrameError_quiet (e : FrameError) : (raiseFrameError e s).quiet = true := rfl
@[simp] theorem raiseFrameError_foValid (e : FrameError) : (raiseFrameError e s).foValid = s.foValid := rfl
@[simp] theorem raiseFrameError_foCode (e : FrameError) : (raiseFrameError e s).foCode = s.foCode := rfl
@[simp] theorem raiseFrameError_foLen (e : FrameError) : (raiseFrameError e s).foLen = s.foLen := rfl
@[simp] theorem raiseFrameError_foPayload (e : FrameError) : (raiseFrameError e s).foPayload = s.foPayload := rfl
@[simp] theorem raiseFrameError_event (e : FrameError) : (raiseFrameError e s).event = .err e := rfl
@[simp] theorem raiseFrameError_entered (e : FrameError) : (raiseFrameError e s).entered = s.entered := rfl
@[simp] theorem raiseFrameError_cfg (e : FrameError) : (raiseFrameError e s).cfg = s.cfg := rfl
@[simp] theorem raiseFrameError_fuResult (e : FrameError) : (raiseFrameError e s).fuResult = s.fuResult := rfl
@[simp] theorem raiseFrameError_moves (e : FrameError) : (raiseFrameError e s).moves = s.moves := rfl

/-! ### `beginCycle` -/

@[simp] theorem beginCycle_phase : (beginCycle s).phase = s.phase := rfl
@[simp] theorem beginCycle_idx : (beginCycle s).idx = s.idx := rfl
@[simp] theorem beginCycle_code : (beginCycle s).code = s.code := rfl
@[simp] theorem beginCycle_len : (beginCycle s).len = s.len := rfl
@[simp] theorem beginCycle_buf : (beginCycle s).buf = s.buf := rfl
@[simp] theorem beginCycle_sum : (beginCycle s).sum = s.sum := rfl
@[simp] theorem beginCycle_ck : (beginCycle s).ck = s.ck := rfl
@[simp] theorem beginCycle_timer : (beginCycle s).timer = s.timer := rfl
@[simp] theorem beginCycle_quiet : (beginCycle s).quiet = s.quiet := rfl
@[simp] theorem beginCycle_foValid : (beginCycle s).foValid = s.foValid := rfl
@[simp] theorem beginCycle_foCode : (beginCycle s).foCode = s.foCode := rfl
@[simp] theorem beginCycle_foLen : (beginCycle s).foLen = s.foLen := rfl
@[simp] theorem beginCycle_foPayload : (beginCycle s).foPayload = s.foPayload := rfl
@[simp] theorem beginCycle_event : (beginCycle s).event = .none := rfl
@[simp] theorem beginCycle_entered : (beginCycle s).entered = false := rfl
@[simp] theorem beginCycle_cfg : (beginCycle s).cfg = s.cfg := rfl
@[simp] theorem beginCycle_fuResult : (beginCycle s).fuResult = s.fuResult := rfl
@[simp] theorem beginCycle_moves : (beginCycle s).moves = s.moves := rfl

/-! ### `endCycle` -/

@[simp] theorem endCycle_phase (t : Bool) : (endCycle t s).phase = s.phase := rfl
@[simp] theorem endCycle_idx (t : Bool) : (endCycle t s).idx = s.idx := rfl
@[simp] theorem endCycle_code (t : Bool) : (endCycle t s).code = s.code := rfl
@[simp] theorem endCycle_len (t : Bool) : (endCycle t s).len = s.len := rfl
@[simp] theorem endCycle_buf (t : Bool) : (endCycle t s).buf = s.buf := rfl
@[simp] theorem endCycle_sum (t : Bool) : (endCycle t s).sum = s.sum := rfl
@[simp] theorem endCycle_ck (t : Bool) : (endCycle t s).ck = s.ck := rfl
@[simp] theorem endCycle_timer (t : Bool) : (endCycle t s).timer = nextTimer t s := rfl
@[simp] theorem endCycle_quiet (t : Bool) : (endCycle t s).quiet = s.quiet := rfl
@[simp] theorem endCycle_foValid (t : Bool) : (endCycle t s).foValid = s.foValid := rfl
@[simp] theorem endCycle_foCode (t : Bool) : (endCycle t s).foCode = s.foCode := rfl
@[simp] theorem endCycle_foLen (t : Bool) : (endCycle t s).foLen = s.foLen := rfl
@[simp] theorem endCycle_foPayload (t : Bool) : (endCycle t s).foPayload = s.foPayload := rfl
@[simp] theorem endCycle_event (t : Bool) : (endCycle t s).event = s.event := rfl
@[simp] theorem endCycle_entered (t : Bool) : (endCycle t s).entered = false := rfl
@[simp] theorem endCycle_cfg (t : Bool) : (endCycle t s).cfg = s.cfg := rfl
@[simp] theorem endCycle_fuResult (t : Bool) : (endCycle t s).fuResult = s.fuResult := rfl
@[simp] theorem endCycle_moves (t : Bool) : (endCycle t s).moves = s.moves := rfl

/-! ### `doTimeoutAbandon` -/

@[simp] theorem doTimeoutAbandon_phase : (doTimeoutAbandon s).phase = .seek := rfl
@[simp] theorem doTimeoutAbandon_idx : (doTimeoutAbandon s).idx = 0 := rfl
@[simp] theorem doTimeoutAbandon_code : (doTimeoutAbandon s).code = s.code := rfl
@[simp] theorem doTimeoutAbandon_len : (doTimeoutAbandon s).len = s.len := rfl
@[simp] theorem doTimeoutAbandon_buf : (doTimeoutAbandon s).buf = s.buf := rfl
@[simp] theorem doTimeoutAbandon_sum : (doTimeoutAbandon s).sum = s.sum := rfl
@[simp] theorem doTimeoutAbandon_ck : (doTimeoutAbandon s).ck = s.ck := rfl
@[simp] theorem doTimeoutAbandon_timer : (doTimeoutAbandon s).timer = s.timer := rfl
@[simp] theorem doTimeoutAbandon_quiet : (doTimeoutAbandon s).quiet = true := rfl
@[simp] theorem doTimeoutAbandon_foValid : (doTimeoutAbandon s).foValid = s.foValid := rfl
@[simp] theorem doTimeoutAbandon_foCode : (doTimeoutAbandon s).foCode = s.foCode := rfl
@[simp] theorem doTimeoutAbandon_foLen : (doTimeoutAbandon s).foLen = s.foLen := rfl
@[simp] theorem doTimeoutAbandon_foPayload : (doTimeoutAbandon s).foPayload = s.foPayload := rfl
@[simp] theorem doTimeoutAbandon_event : (doTimeoutAbandon s).event = .err .timeout := rfl
@[simp] theorem doTimeoutAbandon_entered : (doTimeoutAbandon s).entered = s.entered := rfl
@[simp] theorem doTimeoutAbandon_cfg : (doTimeoutAbandon s).cfg = s.cfg := rfl
@[simp] theorem doTimeoutAbandon_fuResult : (doTimeoutAbandon s).fuResult = s.fuResult := rfl
@[simp] theorem doTimeoutAbandon_moves : (doTimeoutAbandon s).moves = s.moves := rfl

/-! ### `doSeekStart` -/

@[simp] theorem doSeekStart_phase : (doSeekStart s).phase = .hdr := rfl
@[simp] theorem doSeekStart_idx : (doSeekStart s).idx = 0 := rfl
@[simp] theorem doSeekStart_code : (doSeekStart s).code = s.code := rfl
@[simp] theorem doSeekStart_len : (doSeekStart s).len = s.len := rfl
@[simp] theorem doSeekStart_buf : (doSeekStart s).buf = s.buf := rfl
@[simp] theorem doSeekStart_sum : (doSeekStart s).sum = 0 := rfl
@[simp] theorem doSeekStart_ck : (doSeekStart s).ck = s.ck := rfl
@[simp] theorem doSeekStart_timer : (doSeekStart s).timer = s.timer := rfl
@[simp] theorem doSeekStart_quiet : (doSeekStart s).quiet = s.quiet := rfl
@[simp] theorem doSeekStart_foValid : (doSeekStart s).foValid = s.foValid := rfl
@[simp] theorem doSeekStart_foCode : (doSeekStart s).foCode = s.foCode := rfl
@[simp] theorem doSeekStart_foLen : (doSeekStart s).foLen = s.foLen := rfl
@[simp] theorem doSeekStart_foPayload : (doSeekStart s).foPayload = s.foPayload := rfl
@[simp] theorem doSeekStart_event : (doSeekStart s).event = s.event := rfl
@[simp] theorem doSeekStart_entered : (doSeekStart s).entered = true := rfl
@[simp] theorem doSeekStart_cfg : (doSeekStart s).cfg = s.cfg := rfl
@[simp] theorem doSeekStart_fuResult : (doSeekStart s).fuResult = s.fuResult := rfl
@[simp] theorem doSeekStart_moves : (doSeekStart s).moves = s.moves := rfl

/-! ### `doSeekJunk` -/

@[simp] theorem doSeekJunk_phase : (doSeekJunk s).phase = s.phase := rfl
@[simp] theorem doSeekJunk_idx : (doSeekJunk s).idx = s.idx := rfl
@[simp] theorem doSeekJunk_code : (doSeekJunk s).code = s.code := rfl
@[simp] theorem doSeekJunk_len : (doSeekJunk s).len = s.len := rfl
@[simp] theorem doSeekJunk_buf : (doSeekJunk s).buf = s.buf := rfl
@[simp] theorem doSeekJunk_sum : (doSeekJunk s).sum = s.sum := rfl
@[simp] theorem doSeekJunk_ck : (doSeekJunk s).ck = s.ck := rfl
@[simp] theorem doSeekJunk_timer : (doSeekJunk s).timer = s.timer := rfl
@[simp] theorem doSeekJunk_quiet : (doSeekJunk s).quiet = true := rfl
@[simp] theorem doSeekJunk_foValid : (doSeekJunk s).foValid = s.foValid := rfl
@[simp] theorem doSeekJunk_foCode : (doSeekJunk s).foCode = s.foCode := rfl
@[simp] theorem doSeekJunk_foLen : (doSeekJunk s).foLen = s.foLen := rfl
@[simp] theorem doSeekJunk_foPayload : (doSeekJunk s).foPayload = s.foPayload := rfl
@[simp] theorem doSeekJunk_event : (doSeekJunk s).event = if s.quiet then s.event else .err .badStart := rfl
@[simp] theorem doSeekJunk_entered : (doSeekJunk s).entered = s.entered := rfl
@[simp] theorem doSeekJunk_cfg : (doSeekJunk s).cfg = s.cfg := rfl
@[simp] theorem doSeekJunk_fuResult : (doSeekJunk s).fuResult = s.fuResult := rfl
@[simp] theorem doSeekJunk_moves : (doSeekJunk s).moves = s.moves := rfl

/-! ### `doHdrCode` -/

@[simp] theorem doHdrCode_phase (b : Byte) : (doHdrCode b s).phase = s.phase := rfl
@[simp] theorem doHdrCode_idx (b : Byte) : (doHdrCode b s).idx = 1 := rfl
@[simp] theorem doHdrCode_code (b : Byte) : (doHdrCode b s).code = b := rfl
@[simp] theorem doHdrCode_len (b : Byte) : (doHdrCode b s).len = s.len := rfl
@[simp] theorem doHdrCode_buf (b : Byte) : (doHdrCode b s).buf = s.buf := rfl
@[simp] theorem doHdrCode_sum (b : Byte) : (doHdrCode b s).sum = addByte s.sum b := rfl
@[simp] theorem doHdrCode_ck (b : Byte) : (doHdrCode b s).ck = s.ck := rfl
@[simp] theorem doHdrCode_timer (b : Byte) : (doHdrCode b s).timer = s.timer := rfl
@[simp] theorem doHdrCode_quiet (b : Byte) : (doHdrCode b s).quiet = s.quiet := rfl
@[simp] theorem doHdrCode_foValid (b : Byte) : (doHdrCode b s).foValid = s.foValid := rfl
@[simp] theorem doHdrCode_foCode (b : Byte) : (doHdrCode b s).foCode = s.foCode := rfl
@[simp] theorem doHdrCode_foLen (b : Byte) : (doHdrCode b s).foLen = s.foLen := rfl
@[simp] theorem doHdrCode_foPayload (b : Byte) : (doHdrCode b s).foPayload = s.foPayload := rfl
@[simp] theorem doHdrCode_event (b : Byte) : (doHdrCode b s).event = s.event := rfl
@[simp] theorem doHdrCode_entered (b : Byte) : (doHdrCode b s).entered = s.entered := rfl
@[simp] theorem doHdrCode_cfg (b : Byte) : (doHdrCode b s).cfg = s.cfg := rfl
@[simp] theorem doHdrCode_fuResult (b : Byte) : (doHdrCode b s).fuResult = s.fuResult := rfl
@[simp] theorem doHdrCode_moves (b : Byte) : (doHdrCode b s).moves = s.moves := rfl

/-! ### `doHdrLenOk` -/

@[simp] theorem doHdrLenOk_phase (b : Byte) : (doHdrLenOk b s).phase = if b = 0 then .cke else .pay := rfl
@[simp] theorem doHdrLenOk_idx (b : Byte) : (doHdrLenOk b s).idx = 0 := rfl
@[simp] theorem doHdrLenOk_code (b : Byte) : (doHdrLenOk b s).code = s.code := rfl
@[simp] theorem doHdrLenOk_len (b : Byte) : (doHdrLenOk b s).len = b := rfl
@[simp] theorem doHdrLenOk_buf (b : Byte) : (doHdrLenOk b s).buf = s.buf := rfl
@[simp] theorem doHdrLenOk_sum (b : Byte) : (doHdrLenOk b s).sum = addByte s.sum b := rfl
@[simp] theorem doHdrLenOk_ck (b : Byte) : (doHdrLenOk b s).ck = s.ck := rfl
@[simp] theorem doHdrLenOk_timer (b : Byte) : (doHdrLenOk b s).timer = s.timer := rfl
@[simp] theorem doHdrLenOk_quiet (b : Byte) : (doHdrLenOk b s).quiet = s.quiet := rfl
@[simp] theorem doHdrLenOk_foValid (b : Byte) : (doHdrLenOk b s).foValid = s.foValid := rfl
@[simp] theorem doHdrLenOk_foCode (b : Byte) : (doHdrLenOk b s).foCode = s.foCode := rfl
@[simp] theorem doHdrLenOk_foLen (b : Byte) : (doHdrLenOk b s).foLen = s.foLen := rfl
@[simp] theorem doHdrLenOk_foPayload (b : Byte) : (doHdrLenOk b s).foPayload = s.foPayload := rfl
@[simp] theorem doHdrLenOk_event (b : Byte) : (doHdrLenOk b s).event = s.event := rfl
@[simp] theorem doHdrLenOk_entered (b : Byte) : (doHdrLenOk b s).entered = s.entered := rfl
@[simp] theorem doHdrLenOk_cfg (b : Byte) : (doHdrLenOk b s).cfg = s.cfg := rfl
@[simp] theorem doHdrLenOk_fuResult (b : Byte) : (doHdrLenOk b s).fuResult = s.fuResult := rfl
@[simp] theorem doHdrLenOk_moves (b : Byte) : (doHdrLenOk b s).moves = s.moves := rfl

/-! ### `doCkHi` -/

@[simp] theorem doCkHi_phase (b : Byte) : (doCkHi b s).phase = s.phase := rfl
@[simp] theorem doCkHi_idx (b : Byte) : (doCkHi b s).idx = 1 := rfl
@[simp] theorem doCkHi_code (b : Byte) : (doCkHi b s).code = s.code := rfl
@[simp] theorem doCkHi_len (b : Byte) : (doCkHi b s).len = s.len := rfl
@[simp] theorem doCkHi_buf (b : Byte) : (doCkHi b s).buf = s.buf := rfl
@[simp] theorem doCkHi_sum (b : Byte) : (doCkHi b s).sum = s.sum := rfl
@[simp] theorem doCkHi_ck (b : Byte) : (doCkHi b s).ck = setCkHi s.ck b := rfl
@[simp] theorem doCkHi_timer (b : Byte) : (doCkHi b s).timer = s.timer := rfl
@[simp] theorem doCkHi_quiet (b : Byte) : (doCkHi b s).quiet = s.quiet := rfl
@[simp] theorem doCkHi_foValid (b : Byte) : (doCkHi b s).foValid = s.foValid := rfl
@[simp] theorem doCkHi_foCode (b : Byte) : (doCkHi b s).foCode = s.foCode := rfl
@[simp] theorem doCkHi_foLen (b : Byte) : (doCkHi b s).foLen = s.foLen := rfl
@[simp] theorem doCkHi_foPayload (b : Byte) : (doCkHi b s).foPayload = s.foPayload := rfl
@[simp] theorem doCkHi_event (b : Byte) : (doCkHi b s).event = s.event := rfl
@[simp] theorem doCkHi_entered (b : Byte) : (doCkHi b s).entered = s.entered := rfl
@[simp] theorem doCkHi_cfg (b : Byte) : (doCkHi b s).cfg = s.cfg := rfl
@[simp] theorem doCkHi_fuResult (b : Byte) : (doCkHi b s).fuResult = s.fuResult := rfl
@[simp] theorem doCkHi_moves (b : Byte) : (doCkHi b s).moves = s.moves := rfl

/-! ### `doCkLo` -/

@[simp] theorem doCkLo_phase (b : Byte) : (doCkLo b s).phase = s.phase := rfl
@[simp] theorem doCkLo_idx (b : Byte) : (doCkLo b s).idx = 2 := rfl
@[simp] theorem doCkLo_code (b : Byte) : (doCkLo b s).code = s.code := rfl
@[simp] theorem doCkLo_len (b : Byte) : (doCkLo b s).len = s.len := rfl
@[simp] theorem doCkLo_buf (b : Byte) : (doCkLo b s).buf = s.buf := rfl
@[simp] theorem doCkLo_sum (b : Byte) : (doCkLo b s).sum = s.sum := rfl
@[simp] theorem doCkLo_ck (b : Byte) : (doCkLo b s).ck = setCkLo s.ck b := rfl
@[simp] theorem doCkLo_timer (b : Byte) : (doCkLo b s).timer = s.timer := rfl
@[simp] theorem doCkLo_quiet (b : Byte) : (doCkLo b s).quiet = s.quiet := rfl
@[simp] theorem doCkLo_foValid (b : Byte) : (doCkLo b s).foValid = s.foValid := rfl
@[simp] theorem doCkLo_foCode (b : Byte) : (doCkLo b s).foCode = s.foCode := rfl
@[simp] theorem doCkLo_foLen (b : Byte) : (doCkLo b s).foLen = s.foLen := rfl
@[simp] theorem doCkLo_foPayload (b : Byte) : (doCkLo b s).foPayload = s.foPayload := rfl
@[simp] theorem doCkLo_event (b : Byte) : (doCkLo b s).event = s.event := rfl
@[simp] theorem doCkLo_entered (b : Byte) : (doCkLo b s).entered = s.entered := rfl
@[simp] theorem doCkLo_cfg (b : Byte) : (doCkLo b s).cfg = s.cfg := rfl
@[simp] theorem doCkLo_fuResult (b : Byte) : (doCkLo b s).fuResult = s.fuResult := rfl
@[simp] theorem doCkLo_moves (b : Byte) : (doCkLo b s).moves = s.moves := rfl

/-! ### `doEndBadsum` -/

@[simp] theorem doEndBadsum_phase : (doEndBadsum s).phase = .seek := rfl
@[simp] theorem doEndBadsum_idx : (doEndBadsum s).idx = 0 := rfl
@[simp] theorem doEndBadsum_code : (doEndBadsum s).code = s.code := rfl
@[simp] theorem doEndBadsum_len : (doEndBadsum s).len = s.len := rfl
@[simp] theorem doEndBadsum_buf : (doEndBadsum s).buf = s.buf := rfl
@[simp] theorem doEndBadsum_sum : (doEndBadsum s).sum = s.sum := rfl
@[simp] theorem doEndBadsum_ck : (doEndBadsum s).ck = s.ck := rfl
@[simp] theorem doEndBadsum_timer : (doEndBadsum s).timer = s.timer := rfl
@[simp] theorem doEndBadsum_quiet : (doEndBadsum s).quiet = true := rfl
@[simp] theorem doEndBadsum_foValid : (doEndBadsum s).foValid = s.foValid := rfl
@[simp] theorem doEndBadsum_foCode : (doEndBadsum s).foCode = s.foCode := rfl
@[simp] theorem doEndBadsum_foLen : (doEndBadsum s).foLen = s.foLen := rfl
@[simp] theorem doEndBadsum_foPayload : (doEndBadsum s).foPayload = s.foPayload := rfl
@[simp] theorem doEndBadsum_event : (doEndBadsum s).event = .err .checksumMismatch := rfl
@[simp] theorem doEndBadsum_entered : (doEndBadsum s).entered = s.entered := rfl
@[simp] theorem doEndBadsum_cfg : (doEndBadsum s).cfg = s.cfg := rfl
@[simp] theorem doEndBadsum_fuResult : (doEndBadsum s).fuResult = s.fuResult := rfl
@[simp] theorem doEndBadsum_moves : (doEndBadsum s).moves = s.moves := rfl

/-! ### `pushMove` -/

@[simp] theorem pushMove_phase (m : HostMove) : (pushMove m s).phase = s.phase := rfl
@[simp] theorem pushMove_idx (m : HostMove) : (pushMove m s).idx = s.idx := rfl
@[simp] theorem pushMove_code (m : HostMove) : (pushMove m s).code = s.code := rfl
@[simp] theorem pushMove_len (m : HostMove) : (pushMove m s).len = s.len := rfl
@[simp] theorem pushMove_buf (m : HostMove) : (pushMove m s).buf = s.buf := rfl
@[simp] theorem pushMove_sum (m : HostMove) : (pushMove m s).sum = s.sum := rfl
@[simp] theorem pushMove_ck (m : HostMove) : (pushMove m s).ck = s.ck := rfl
@[simp] theorem pushMove_timer (m : HostMove) : (pushMove m s).timer = s.timer := rfl
@[simp] theorem pushMove_quiet (m : HostMove) : (pushMove m s).quiet = s.quiet := rfl
@[simp] theorem pushMove_foValid (m : HostMove) : (pushMove m s).foValid = s.foValid := rfl
@[simp] theorem pushMove_foCode (m : HostMove) : (pushMove m s).foCode = s.foCode := rfl
@[simp] theorem pushMove_foLen (m : HostMove) : (pushMove m s).foLen = s.foLen := rfl
@[simp] theorem pushMove_foPayload (m : HostMove) : (pushMove m s).foPayload = s.foPayload := rfl
@[simp] theorem pushMove_event (m : HostMove) : (pushMove m s).event = s.event := rfl
@[simp] theorem pushMove_entered (m : HostMove) : (pushMove m s).entered = s.entered := rfl
@[simp] theorem pushMove_cfg (m : HostMove) : (pushMove m s).cfg = s.cfg := rfl
@[simp] theorem pushMove_fuResult (m : HostMove) : (pushMove m s).fuResult = s.fuResult := rfl
@[simp] theorem pushMove_moves (m : HostMove) : (pushMove m s).moves = m :: s.moves := rfl

/-! ### `reexamine`: either SEEK transition of the same byte -/

@[simp] theorem reexamine_code (b : Byte) : (reexamine b s).code = s.code := by
  unfold reexamine; split <;> rfl
@[simp] theorem reexamine_len (b : Byte) : (reexamine b s).len = s.len := by
  unfold reexamine; split <;> rfl
@[simp] theorem reexamine_buf (b : Byte) : (reexamine b s).buf = s.buf := by
  unfold reexamine; split <;> rfl
@[simp] theorem reexamine_ck (b : Byte) : (reexamine b s).ck = s.ck := by
  unfold reexamine; split <;> rfl
@[simp] theorem reexamine_timer (b : Byte) : (reexamine b s).timer = s.timer := by
  unfold reexamine; split <;> rfl
@[simp] theorem reexamine_foValid (b : Byte) : (reexamine b s).foValid = s.foValid := by
  unfold reexamine; split <;> rfl
@[simp] theorem reexamine_foCode (b : Byte) : (reexamine b s).foCode = s.foCode := by
  unfold reexamine; split <;> rfl
@[simp] theorem reexamine_foLen (b : Byte) : (reexamine b s).foLen = s.foLen := by
  unfold reexamine; split <;> rfl
@[simp] theorem reexamine_foPayload (b : Byte) : (reexamine b s).foPayload = s.foPayload := by
  unfold reexamine; split <;> rfl
@[simp] theorem reexamine_cfg (b : Byte) : (reexamine b s).cfg = s.cfg := by
  unfold reexamine; split <;> rfl
@[simp] theorem reexamine_fuResult (b : Byte) : (reexamine b s).fuResult = s.fuResult := by
  unfold reexamine; split <;> rfl
@[simp] theorem reexamine_moves (b : Byte) : (reexamine b s).moves = s.moves := by
  unfold reexamine; split <;> rfl

theorem reexamine_start : reexamine Config.startMarker s = doSeekStart s := rfl

theorem reexamine_junk (b : Byte) (h : b ≠ Config.startMarker) : reexamine b s = doSeekJunk s := by
  simp [reexamine, h]

end Sys2Proof.Machine
end

