-- ==== Sys2Proof/Laws/Select.lean ====
section
/-! SUPPORT. Which transition a state selects (R71, R112), phase by phase, and what an operation guarded by its
selection answers. Later proofs cite these and never unfold the word. -/

namespace Sys2Proof

/-! ### What a TSW of each phase and sub decodes to -/

theorem decodeTsw_seek_start (q : BitVec 2) (c : TswCond) :
    decodeTsw (packTsw 0 q Config.startMarker) c = .ok .seekStart := by
  simp only [decodeTsw, tswHits_CFF]; rfl

theorem decodeTsw_seek_junk (q : BitVec 2) (b : Byte) (c : TswCond) (h : b ≠ Config.startMarker) :
    decodeTsw (packTsw 0 q b) c = .ok (.seekJunk b) := by
  have h1 : packTsw 0 0 b ≠ 0x0DD := fun e => h (packTsw_inj (p := 0) (q := 0) (p' := 0) (q' := 0) |>.1 e).2.2
  simp only [decodeTsw, tswHits_CFF, tswHits_C00, tswByte_pack, decide_eq_true_eq, h1, if_false]
  rfl

/-- A word of another phase does not match the row of SEEK_START. -/
theorem pack_ne_start (p : BitVec 2) (b : Byte) (h : p ≠ 0) : packTsw p 0 b ≠ 0x0DD :=
  fun e => h (packTsw_inj (p' := 0) (q' := 0) (b' := 0xDD) |>.1 e).1

theorem decodeTsw_hdr_code (b : Byte) (c : TswCond) : decodeTsw (packTsw 1 0 b) c = .ok (.hdrCode b) := by
  simp only [decodeTsw, tswHits_CFF, tswHits_C00, tswHits_F00, tswByte_pack, decide_eq_true_eq,
    pack_ne_start 1 b (by decide), if_false]
  rfl

theorem decodeTsw_hdr_len (b : Byte) (c : TswCond) :
    decodeTsw (packTsw 1 1 b) c = .ok (if c.maxPayload < b.toNat then .hdrLenBad b else .hdrLenOk b) := by
  simp only [decodeTsw, tswHits_CFF, tswHits_C00, tswHits_F00, tswByte_pack, decide_eq_true_eq,
    pack_ne_start 1 b (by decide), if_false]
  by_cases h : c.maxPayload < b.toNat
  · simp only [h, decide_true, if_true]; rfl
  · simp only [h, Nat.le_of_not_lt h, decide_true, decide_false, if_false]; rfl

theorem decodeTsw_pay_byte (b : Byte) (c : TswCond) : decodeTsw (packTsw 2 0 b) c = .ok (.payByte b) := by
  simp only [decodeTsw, tswHits_CFF, tswHits_C00, tswHits_F00, tswByte_pack, decide_eq_true_eq,
    pack_ne_start 2 b (by decide), if_false]
  rfl

theorem decodeTsw_pay_last (b : Byte) (c : TswCond) : decodeTsw (packTsw 2 1 b) c = .ok (.payLast b) := by
  simp only [decodeTsw, tswHits_CFF, tswHits_C00, tswHits_F00, tswByte_pack, decide_eq_true_eq,
    pack_ne_start 2 b (by decide), if_false]
  rfl

theorem decodeTsw_ck_hi (b : Byte) (c : TswCond) : decodeTsw (packTsw 3 0 b) c = .ok (.ckHi b) := by
  simp only [decodeTsw, tswHits_CFF, tswHits_C00, tswHits_F00, tswByte_pack, decide_eq_true_eq,
    pack_ne_start 3 b (by decide), if_false]
  rfl

theorem decodeTsw_ck_lo (b : Byte) (c : TswCond) : decodeTsw (packTsw 3 1 b) c = .ok (.ckLo b) := by
  simp only [decodeTsw, tswHits_CFF, tswHits_C00, tswHits_F00, tswByte_pack, decide_eq_true_eq,
    pack_ne_start 3 b (by decide), if_false]
  rfl

theorem decodeTsw_end (c : TswCond) :
    decodeTsw (packTsw 3 2 Config.endMarker) c = .ok (if c.sumGood then .endOk else .endBadsum) := by
  obtain ⟨m, g⟩ := c
  cases g <;> simp only [decodeTsw, tswHits_CFF, tswHits_C00, tswHits_F00, tswHits_FFF] <;> rfl

theorem decodeTsw_end_badmark (b : Byte) (c : TswCond) (h : b ≠ Config.endMarker) :
    decodeTsw (packTsw 3 2 b) c = .ok (.endBadmark b) := by
  have h1 : packTsw 3 2 b ≠ 0xE77 := fun e => h (packTsw_inj (p := 3) (q := 2) (p' := 3) (q' := 2) |>.1 e).2.2
  simp only [decodeTsw, tswHits_CFF, tswHits_C00, tswHits_F00, tswHits_FFF, tswByte_pack, decide_eq_true_eq,
    pack_ne_start 3 b (by decide), h1, decide_false, Bool.false_and]
  rfl

/-- One row of a first-match table: what holds of the row's operation where the row matches, and of the rest. -/
theorem of_row (P : Instr → Prop) (p : Prop) [Decidable p] {i j : Instr} {rest : Except Reject Instr}
    (hj : p → P j) (hr : rest = .ok i → P i) (h : (if p then .ok j else rest) = .ok i) : P i := by
  by_cases hp : p
  · rw [if_pos hp] at h; injection h with h; exact h ▸ hj hp
  · rw [if_neg hp] at h; exact hr h

/-- Whatever a TSW decodes to is a byte transition (R112). -/
theorem decodeTsw_format (w : BitVec 12) (c : TswCond) (i : Instr) : decodeTsw w c = .ok i → i.format = .tsw := by
  unfold decodeTsw
  iterate 12 apply of_row (·.format = .tsw) _ (fun _ => rfl)
  exact fun h => nomatch h

/-- The byte a transition is selected by: its operand, or the marker it stands for. -/
def selectedBy (b : Byte) : Instr → Prop
  | .seekStart => b = Config.startMarker
  | .endOk => b = Config.endMarker
  | .endBadsum => b = Config.endMarker
  | .seekJunk x | .hdrCode x | .hdrLenBad x | .hdrLenOk x | .payByte x | .payLast x | .ckHi x | .ckLo x
  | .endBadmark x => b = x
  | _ => False

/-- A transition that a TSW selects is selected by the byte of that TSW. -/
theorem decodeTsw_selectedBy (p q : BitVec 2) (b : Byte) (c : TswCond) (i : Instr) :
    decodeTsw (packTsw p q b) c = .ok i → selectedBy b i := by
  have hs : tswHits (packTsw p q b) 0x0DD 0xCFF = true → b = Config.startMarker := by
    rw [tswHits_CFF, decide_eq_true_eq]
    exact fun e => (packTsw_inj (p' := 0) (q' := 0) (b' := Config.startMarker) |>.1 e).2.2
  have he : ∀ g : Bool, (tswHits (packTsw p q b) 0xE77 0xFFF && g) = true → b = Config.endMarker := by
    intro g h
    rw [tswHits_FFF, Bool.and_eq_true, decide_eq_true_eq] at h
    exact (packTsw_inj (p' := 3) (q' := 2) (b' := Config.endMarker) |>.1 h.1).2.2
  unfold decodeTsw
  apply of_row (selectedBy b) _ hs
  iterate 8 (refine of_row (selectedBy b) _ ?_ ?_; · exact fun _ => (tswByte_pack p q b).symm)
  iterate 2 (refine of_row (selectedBy b) _ ?_ ?_; · exact he _)
  refine of_row (selectedBy b) _ (fun _ => ?_) (fun h => nomatch h)
  exact (tswByte_pack p q b).symm

namespace Machine

/-! ### What a state selects -/

theorem select_seek (s : State) (b : Byte) (hp : s.phase = .seek) :
    selectTransition s b = .ok (if b = Config.startMarker then .seekStart else .seekJunk b) := by
  simp only [selectTransition, decode, tswSubOf, hp, Phase.bits]
  split
  · rename_i h; subst h; exact decodeTsw_seek_start _ _
  · rename_i h; exact decodeTsw_seek_junk _ _ _ h

theorem select_hdr_code (s : State) (b : Byte) (hp : s.phase = .hdr) (hi : s.idx = 0) :
    selectTransition s b = .ok (.hdrCode b) := by
  simp only [selectTransition, decode, tswSubOf, hp, hi, Phase.bits]
  exact decodeTsw_hdr_code _ _

theorem select_hdr_len (s : State) (b : Byte) (hp : s.phase = .hdr) (hi : s.idx = 1) :
    selectTransition s b = .ok (if s.cfg.maxPayload < b.toNat then .hdrLenBad b else .hdrLenOk b) := by
  simp only [selectTransition, decode, tswSubOf, hp, hi, Phase.bits]
  exact decodeTsw_hdr_len _ _

theorem select_pay (s : State) (b : Byte) (hp : s.phase = .pay) :
    selectTransition s b = .ok (if s.idx.toNat + 1 = s.len.toNat then .payLast b else .payByte b) := by
  simp only [selectTransition, decode, tswSubOf, hp, Phase.bits]
  split
  · exact decodeTsw_pay_last _ _
  · exact decodeTsw_pay_byte _ _

theorem select_ck_hi (s : State) (b : Byte) (hp : s.phase = .cke) (hi : s.idx = 0) :
    selectTransition s b = .ok (.ckHi b) := by
  simp only [selectTransition, decode, tswSubOf, hp, hi, Phase.bits]
  exact decodeTsw_ck_hi _ _

theorem select_ck_lo (s : State) (b : Byte) (hp : s.phase = .cke) (hi : s.idx = 1) :
    selectTransition s b = .ok (.ckLo b) := by
  simp only [selectTransition, decode, tswSubOf, hp, hi, Phase.bits]
  exact decodeTsw_ck_lo _ _

theorem select_end (s : State) (b : Byte) (hp : s.phase = .cke) (hi : s.idx = 2) :
    selectTransition s b =
      .ok (if b = Config.endMarker then (if sumGood s then .endOk else .endBadsum) else .endBadmark b) := by
  simp only [selectTransition, decode, tswSubOf, hp, hi, Phase.bits]
  split
  · rename_i h; subst h; exact decodeTsw_end _
  · rename_i h; exact decodeTsw_end_badmark _ _ h

theorem sumGood_iff (s : State) : sumGood s = true ↔ (s.sum.toNat + s.ck.toNat) % 65536 = 0 := by
  rw [sumGood, decide_eq_true_eq, ← BitVec.toNat_inj, BitVec.toNat_add]; rfl

/-! ### The guards -/

theorem withLegalConfig_of_legal (s : State) (r : StepResult) (h : s.cfg.legal = true) : withLegalConfig s r = r := by
  simp [withLegalConfig, h]

theorem withLegalConfig_of_illegal (s : State) (r : StepResult) (h : s.cfg.legal = false) :
    withLegalConfig s r = .refused .illegalConfiguration := by
  simp [withLegalConfig, h]

/-- A selected transition happens. -/
theorem whenSelected_of_selected (i : Instr) (b : Byte) (s : State) (r : StepResult) (hl : s.cfg.legal = true)
    (hs : selectTransition s b = .ok i) : whenSelected i b s r = r := by
  simp [whenSelected, withLegalConfig_of_legal _ _ hl, hs]

/-- A selected transition, run as an operation of its own, does what a byte cycle does in its step 4 (R106, R112). -/
theorem exec_of_selected (s : State) (b : Byte) (i : Instr) (hl : s.cfg.legal = true)
    (h : selectTransition s b = .ok i) : exec i s = performTransition i s := by
  have hb := decodeTsw_selectedBy _ _ _ _ _ h
  cases i <;> first | exact hb.elim | (cases hb; exact whenSelected_of_selected _ _ _ _ hl h)

/-- A transition that answers a next state was selected. -/
theorem whenSelected_next (i : Instr) (b : Byte) (s t : State) (r : StepResult)
    (h : whenSelected i b s r = .next t) : s.cfg.legal = true ∧ selectTransition s b = .ok i ∧ r = .next t := by
  unfold whenSelected withLegalConfig at h
  split at h
  · rename_i hl
    split at h
    · rename_i j hj
      split at h
      · rename_i e; exact ⟨hl, e ▸ hj, h⟩
      · exact nomatch h
    · exact nomatch h
  · exact nomatch h

end Machine

end Sys2Proof
end

