-- ==== Sys2Proof/Laws/Codec.lean ====
section
/-! SUPPORT. What the Frame Codec's checks say: the two halves of a validated frame (R97), and what the slicer answers
for a record that has them and for one that has not. -/

namespace Sys2Proof.Machine

/-- The check is R97's invariant. -/
theorem isValidatedFrame_iff (m : Nat) (f : ValidatedFrame) :
    isValidatedFrame m f = true ↔ f.payload.length = f.len.toNat ∧ f.len.toNat ≤ m := by
  simp [isValidatedFrame, ValidatedFrame.wf]

/-- Everything the slicer can answer. -/
theorem slicePayloadOf_eq (m : Nat) (f : ValidatedFrame) :
    slicePayloadOf m f = if f.payload.length = f.len.toNat ∧ f.len.toNat ≤ m
      then .ok (sliceKindOf f.code, f.payload) else .error .operandOutsideDomain := by
  simp only [slicePayloadOf, isValidatedFrame_iff]

end Sys2Proof.Machine
end

