-- ==== Sys2Proof/Laws/Memory.lean ====
section
/-! SUPPORT. The laws of the two byte arrays: a read after a write, and that every operation keeps the canonical form. -/

namespace Sys2Proof.Machine

@[simp] theorem read_nil (i : Nat) : Memory.read? [] i = none := rfl

theorem read_cons (c : Host.Cell) (cs : Memory) (i : Nat) :
    Memory.read? (c :: cs) i = if c.1 = i then some c.2 else Memory.read? cs i := rfl

@[simp] theorem read_write_same (m : Memory) (i : Nat) (v : Byte) : (m.write i v).read? i = some v := by
  induction m with
  | nil => simp [Memory.write, read_cons]
  | cons c cs ih =>
    unfold Memory.write
    split
    · simp [read_cons]
    · split
      · simp [read_cons]
      · rename_i h
        rw [read_cons, if_neg (fun e => h e.symm), ih]

theorem read_write_other (m : Memory) (i j : Nat) (v : Byte) (h : j ≠ i) :
    (m.write i v).read? j = m.read? j := by
  induction m with
  | nil => simp [Memory.write, read_cons, h.symm]
  | cons c cs ih =>
    unfold Memory.write
    split
    · rw [read_cons, if_neg (fun e => h e.symm)]
    · split
      · rename_i e
        rw [read_cons, if_neg (fun e' => h e'.symm), read_cons, if_neg (fun e' => h (e'.symm.trans e.symm))]
      · rw [read_cons, read_cons, ih]

/-- The cells of a memory after a write are the written one and cells that stood there before. -/
theorem mem_write (m : Memory) (i : Nat) (v : Byte) (c : Host.Cell) (h : c ∈ m.write i v) :
    c = (i, v) ∨ c ∈ m := by
  induction m with
  | nil => simpa [Memory.write] using h
  | cons d ds ih =>
    unfold Memory.write at h
    split at h
    · simpa using h
    · split at h
      · rcases List.mem_cons.1 h with h | h
        · exact .inl h
        · exact .inr (List.mem_cons_of_mem _ h)
      · rcases List.mem_cons.1 h with h | h
        · exact .inr (h ▸ List.mem_cons_self)
        · exact (ih h).imp_right (List.mem_cons_of_mem _)

theorem write_pairwise (m : Memory) (i : Nat) (v : Byte) (h : m.Pairwise fun c d => c.1 < d.1) :
    (m.write i v).Pairwise fun c d => c.1 < d.1 := by
  induction m with
  | nil => simp [Memory.write]
  | cons c cs ih =>
    obtain ⟨hc, hcs⟩ := List.pairwise_cons.1 h
    unfold Memory.write
    split
    · rename_i hi
      refine List.pairwise_cons.2 ⟨fun d hd => ?_, h⟩
      rcases List.mem_cons.1 hd with rfl | hd
      · exact hi
      · exact Nat.lt_trans hi (hc d hd)
    · split
      · rename_i e
        exact List.pairwise_cons.2 ⟨fun d hd => e ▸ hc d hd, hcs⟩
      · rename_i h1 h2
        refine List.pairwise_cons.2 ⟨fun d hd => ?_, ih hcs⟩
        rcases mem_write cs i v d hd with rfl | hd
        · exact Nat.lt_of_le_of_ne (Nat.le_of_not_lt h1) (fun e => h2 e.symm)
        · exact hc d hd

/-- A write inside the array keeps the canonical form. -/
theorem write_wf (m : Memory) (i : Nat) (v : Byte) (h : m.wf) (hi : i < 255) : (m.write i v).wf := by
  refine ⟨write_pairwise m i v h.1, fun c hc => ?_⟩
  rcases mem_write m i v c hc with rfl | hc
  · exact hi
  · exact h.2 c hc

theorem nil_wf : Memory.wf [] := ⟨List.Pairwise.nil, fun _ h => nomatch h⟩

theorem fillFrom_wf (f : Nat → Byte) (n : Nat) (m : Memory) (h : m.wf) (hn : n ≤ 255) : (fillFrom f n m).wf := by
  induction n with
  | zero => exact h
  | succ n ih => exact write_wf _ _ _ (ih (by omega)) (by omega)

theorem read_fillFrom_lt (f : Nat → Byte) (n i : Nat) (m : Memory) (h : i < n) :
    (fillFrom f n m).read? i = some (f i) := by
  induction n with
  | zero => omega
  | succ n ih =>
    by_cases e : i = n
    · subst e; exact read_write_same _ _ _
    · rw [fillFrom, read_write_other _ _ _ _ e, ih (by omega)]

theorem read_fillFrom_ge (f : Nat → Byte) (n i : Nat) (m : Memory) (h : n ≤ i) :
    (fillFrom f n m).read? i = m.read? i := by
  induction n with
  | zero => rfl
  | succ n ih => rw [fillFrom, read_write_other _ _ _ _ (by omega), ih (by omega)]

/-- Below the first index of a canonical memory nothing is written. -/
theorem read_lt_head (c : Host.Cell) (cs : Memory) (h : Memory.wf (c :: cs)) (i : Nat) (hi : i < c.1) :
    Memory.read? (c :: cs) i = none := by
  have hall : ∀ d ∈ c :: cs, i < d.1 := by
    intro d hd
    rcases List.mem_cons.1 hd with rfl | hd
    · exact hi
    · exact Nat.lt_trans hi ((List.pairwise_cons.1 h.1).1 d hd)
  generalize c :: cs = m at hall
  induction m with
  | nil => rfl
  | cons d ds ih =>
    have hd := hall d List.mem_cons_self
    rw [read_cons, if_neg (by omega)]
    exact ih fun x hx => hall x (List.mem_cons_of_mem _ hx)

/-- The arrays of the reset state are in canonical form. -/
theorem reset_arraysWf : State.reset.arraysWf := ⟨nil_wf, nil_wf⟩

end Sys2Proof.Machine
end

