-- ==== Sys2Proof/Laws/Cycle.lean ====
section
/-! SUPPORT. What a cycle does (R106): one lemma per shared operation that says everything it can answer. -/

namespace Sys2Proof.Machine

@[simp] theorem timedOut_seek (s : State) (h : s.phase = .seek) : timedOut s = false := by simp [timedOut, h]

theorem timedOut_iff (s : State) : timedOut s = true ↔ s.phase ≠ .seek ∧ s.cfg.timeout ≤ s.timer := by
  simp [timedOut]

@[simp] theorem timedOut_beginCycle (s : State) : timedOut (beginCycle s) = timedOut s := rfl

theorem abandonIfElapsed_of_elapsed (s : State) (h : timedOut s = true) :
    abandonIfElapsed s = doTimeoutAbandon s := by simp [abandonIfElapsed, h]

theorem abandonIfElapsed_of_not (s : State) (h : timedOut s = false) : abandonIfElapsed s = s := by
  simp [abandonIfElapsed, h]

@[simp] theorem abandonIfElapsed_cfg (s : State) : (abandonIfElapsed s).cfg = s.cfg := by
  unfold abandonIfElapsed; split <;> rfl

/-- A cycle without a byte, in a legal configuration. -/
theorem cycleNoByte_legal (t : Bool) (s : State) (h : s.cfg.legal = true) :
    cycleNoByte t s = .next (endCycle t (abandonIfElapsed (beginCycle s))) :=
  withLegalConfig_of_legal _ _ h

/-- A cycle with a byte whose transition answers a next state. -/
theorem cycleWithByte_next (t : Bool) (b : Byte) (s u : State) (hl : s.cfg.legal = true)
    (h : byteTransition b (abandonIfElapsed (beginCycle s)) = .next u) :
    cycleWithByte t b s = .next (endCycle t u) := by
  rw [cycleWithByte, withLegalConfig_of_legal _ _ hl, h]; rfl

/-- What a cycle with a byte needed to answer a next state. -/
theorem cycleWithByte_inv (t : Bool) (b : Byte) (s u : State) (h : cycleWithByte t b s = .next u) :
    s.cfg.legal = true ∧
      ∃ v, byteTransition b (abandonIfElapsed (beginCycle s)) = .next v ∧ u = endCycle t v := by
  unfold cycleWithByte withLegalConfig at h
  split at h
  · rename_i hl
    refine ⟨hl, ?_⟩
    cases hb : byteTransition b (abandonIfElapsed (beginCycle s)) with
    | next v => rw [hb] at h; exact ⟨v, rfl, by injection h with h; exact h.symm⟩
    | fault r => rw [hb] at h; exact nomatch h
    | refused r => rw [hb] at h; exact nomatch h
  · exact nomatch h

theorem byteTransition_of_selected (s : State) (b : Byte) (i : Instr) (h : selectTransition s b = .ok i) :
    byteTransition b s = performTransition i s := by simp [byteTransition, h]

/-- In `SEEK` a byte is a start marker or junk (R113, R114). -/
theorem byteTransition_seek (s : State) (b : Byte) (h : s.phase = .seek) :
    byteTransition b s = .next (reexamine b s) := by
  rw [byteTransition_of_selected s b _ (select_seek s b h), reexamine]
  split <;> rfl

/-- Everything a byte can do in a state of R27: one case for each transition (the two of `SEEK` in one). -/
theorem byteTransition_cases (s : State) (b : Byte) (h : s.srInv) :
    (s.phase = .seek ∧ byteTransition b s = .next (reexamine b s)) ∨
    (s.phase = .hdr ∧ s.idx = 0 ∧ byteTransition b s = .next (doHdrCode b s)) ∨
    (s.phase = .hdr ∧ s.idx = 1 ∧ s.cfg.maxPayload < b.toNat ∧ byteTransition b s = .next (doHdrLenBad b s)) ∨
    (s.phase = .hdr ∧ s.idx = 1 ∧ b.toNat ≤ s.cfg.maxPayload ∧ byteTransition b s = .next (doHdrLenOk b s)) ∨
    (s.phase = .pay ∧ s.idx.toNat + 1 < s.len.toNat ∧ s.len.toNat ≤ s.cfg.maxPayload ∧
      byteTransition b s = .next
        { s with buf := s.buf.write s.idx.toNat b, sum := addByte s.sum b, idx := s.idx + 1 }) ∨
    (s.phase = .pay ∧ s.idx.toNat + 1 = s.len.toNat ∧ s.len.toNat ≤ s.cfg.maxPayload ∧
      byteTransition b s = .next
        { s with buf := s.buf.write s.idx.toNat b, sum := addByte s.sum b, phase := .cke, idx := 0 }) ∨
    (s.phase = .cke ∧ s.idx = 0 ∧ byteTransition b s = .next (doCkHi b s)) ∨
    (s.phase = .cke ∧ s.idx = 1 ∧ byteTransition b s = .next (doCkLo b s)) ∨
    (s.phase = .cke ∧ s.idx = 2 ∧ b = Config.endMarker ∧ sumGood s = true ∧ s.len.toNat ≤ s.cfg.maxPayload ∧
      byteTransition b s = .next { s with
        foValid := true, foCode := s.code, foLen := s.len
        foPayload := fillFrom (bufRead s) s.len.toNat s.foPayload
        event := .frame, quiet := false, phase := .seek, idx := 0 }) ∨
    (s.phase = .cke ∧ s.idx = 2 ∧ b = Config.endMarker ∧ sumGood s = false ∧
      byteTransition b s = .next (doEndBadsum s)) ∨
    (s.phase = .cke ∧ s.idx = 2 ∧ b ≠ Config.endMarker ∧ byteTransition b s = .next (doEndBadmark b s)) := by
  obtain ⟨-, h2, h3, h4, -⟩ := h
  have eq_of : ∀ n : Nat, s.idx.toNat = n → n < 256 → s.idx = BitVec.ofNat 8 n := fun n h hn =>
    BitVec.eq_of_toNat_eq (by rw [h, BitVec.toNat_ofNat]; omega)
  cases hp : s.phase
  case seek => exact .inl ⟨rfl, byteTransition_seek s b hp⟩
  case hdr =>
    rcases (by have := h2 hp; omega : s.idx.toNat = 0 ∨ s.idx.toNat = 1) with h0 | h1
    · have hi := eq_of 0 h0 (by omega)
      exact .inr (.inl ⟨rfl, hi, byteTransition_of_selected s b _ (select_hdr_code s b hp hi)⟩)
    · have hi := eq_of 1 h1 (by omega)
      have hs := byteTransition_of_selected s b _ (select_hdr_len s b hp hi)
      by_cases hb : s.cfg.maxPayload < b.toNat
      · rw [if_pos hb] at hs; exact .inr (.inr (.inl ⟨rfl, hi, hb, hs⟩))
      · rw [if_neg hb] at hs; exact .inr (.inr (.inr (.inl ⟨rfl, hi, by omega, hs⟩)))
  case pay =>
    have h3 := h3 hp
    have hs := byteTransition_of_selected s b _ (select_pay s b hp)
    by_cases hb : s.idx.toNat + 1 = s.len.toNat
    · rw [if_pos hb, performTransition, doPayLast, if_pos (by omega)] at hs
      exact .inr (.inr (.inr (.inr (.inr (.inl ⟨rfl, hb, h3.2.1, hs⟩)))))
    · rw [if_neg hb, performTransition, doPayByte, if_pos (by omega), hp] at hs
      exact .inr (.inr (.inr (.inr (.inl ⟨rfl, by omega, h3.2.1, hs⟩))))
  case cke =>
    have h4 := h4 hp
    refine .inr (.inr (.inr (.inr (.inr (.inr ?_)))))
    rcases (by omega : s.idx.toNat = 0 ∨ s.idx.toNat = 1 ∨ s.idx.toNat = 2) with h0 | h1 | h2
    · have hi := eq_of 0 h0 (by omega)
      exact .inl ⟨rfl, hi, byteTransition_of_selected s b _ (select_ck_hi s b hp hi)⟩
    · have hi := eq_of 1 h1 (by omega)
      exact .inr (.inl ⟨rfl, hi, byteTransition_of_selected s b _ (select_ck_lo s b hp hi)⟩)
    · have hi := eq_of 2 h2 (by omega)
      have hs := byteTransition_of_selected s b _ (select_end s b hp hi)
      by_cases hb : b = Config.endMarker
      · rw [if_pos hb] at hs
        cases hg : sumGood s
        · rw [hg] at hs; exact .inr (.inr (.inr (.inl ⟨rfl, hi, hb, rfl, hs⟩)))
        · rw [hg, if_pos rfl, performTransition, doEndOk, if_pos h4.2] at hs
          exact .inr (.inr (.inl ⟨rfl, hi, hb, rfl, h4.2, hs⟩))
      · rw [if_neg hb] at hs
        exact .inr (.inr (.inr (.inr ⟨rfl, hi, hb, hs⟩)))

/-- The two SEEK transitions of a re-examined byte. -/
theorem reexamine_cases (b : Byte) (s : State) :
    (b = Config.startMarker ∧ reexamine b s = doSeekStart s) ∨
    (b ≠ Config.startMarker ∧ reexamine b s = doSeekJunk s) := by
  by_cases h : b = Config.startMarker
  · exact .inl ⟨h, by rw [h]; rfl⟩
  · exact .inr ⟨h, reexamine_junk s b h⟩

/-- Where the invariant holds, so does R27 after steps 2 and 3 of a cycle. -/
theorem srInv_afterAbandon (s : State) (h : s.srInv) : (abandonIfElapsed (beginCycle s)).srInv ∨
    (abandonIfElapsed (beginCycle s)).phase = .seek := by
  unfold abandonIfElapsed
  split
  · exact .inr rfl
  · exact .inl h

/-- A byte cycle after the timeout has elapsed: the abandonment, then the byte in `SEEK` (R110). -/
theorem cycByte_of_elapsed (s : State) (tick : Bool) (b : Byte) (hl : s.cfg.legal = true) (h : timedOut s = true) :
    exec (.cycByte tick b) s = .next (endCycle tick (reexamine b (doTimeoutAbandon (beginCycle s)))) := by
  refine cycleWithByte_next tick b s _ hl ?_
  rw [abandonIfElapsed_of_elapsed _ (by rwa [timedOut_beginCycle])]
  exact byteTransition_seek _ _ rfl

/-- Everything a byte cycle that answers a next state can have done. -/
theorem cycByte_cases (s t : State) (tick : Bool) (b : Byte) (h : exec (.cycByte tick b) s = .next t) :
    (timedOut s = true ∧ t = endCycle tick (reexamine b (doTimeoutAbandon (beginCycle s)))) ∨
    (timedOut s = false ∧ ∃ v, byteTransition b (beginCycle s) = .next v ∧ t = endCycle tick v) := by
  obtain ⟨hl, v, hv, rfl⟩ := cycleWithByte_inv tick b s t h
  cases ht : timedOut s
  · rw [abandonIfElapsed_of_not _ (by rwa [timedOut_beginCycle])] at hv
    exact .inr ⟨rfl, v, hv, rfl⟩
  · rw [cycByte_of_elapsed s tick b hl ht] at h
    exact .inl ⟨rfl, by injection h with h; exact h.symm⟩

/-- Everything a cycle without a byte that answers a next state has done. -/
theorem cycleNoByte_inv (tick : Bool) (s t : State) (h : cycleNoByte tick s = .next t) :
    s.cfg.legal = true ∧ t = endCycle tick (abandonIfElapsed (beginCycle s)) := by
  unfold cycleNoByte withLegalConfig at h
  split at h
  · rename_i hl; injection h with h; exact ⟨hl, h.symm⟩
  · exact nomatch h

/-- What `step` runs: the operation `fetch` gives, on the state it gives. -/
theorem step_of_fetch (s t : State) (i : Instr) (h : fetch s = .ok (i, t)) : step s = exec i t := by
  simp [step, h]

theorem step_next (s u : State) (h : step s = .next u) : ∃ i t, fetch s = .ok (i, t) ∧ exec i t = .next u := by
  unfold step at h
  split at h
  · rename_i i t hf; exact ⟨i, t, hf, h⟩
  · exact nomatch h

/-- What `fetch` can give: an idle cycle with no move left, else what the first move selects. -/
theorem fetch_nil (s : State) (h : s.moves = []) : fetch s = .ok (.cycIdle, s) := by simp [fetch, h]

theorem fetch_cons (s : State) (m : HostMove) (rest : List HostMove) (h : s.moves = m :: rest) :
    fetch s = fetchMove m { s with moves := rest } := by simp [fetch, h]

/-- A cycle whose configuration is legal and held runs the operation its CIW selects (R70). -/
theorem fetchMove_cycle_held (p : CyclePorts) (s : State) (hl : p.params.legal = true) (hh : p.params = s.cfg) :
    fetchMove (.cycle p) s = .ok (decodeCiw p.ciw, s) := by
  obtain ⟨w, a, c, q⟩ := p
  subst hh
  simp only [fetchMove, sampleConfig, hl, if_true, ite_self]

end Sys2Proof.Machine
end

