-- ==== Sys2Proof/Laws/PerInstr.lean ====
section
/-! SUPPORT. The family `Encoding`: one lemma per operation. The selector that `encode` gives an operation has the
format the table gives its row (R70, R71, R72, R111). -/

namespace Sys2Proof.Laws.Encoding

/-- The statement of the family about one operation. -/
def Statement (i : Instr) : Prop := (encode i).format = i.format

theorem cycReset : Statement (.cycReset) := rfl

theorem cycIdle : Statement (.cycIdle) := rfl

theorem cycTick : Statement (.cycTick) := rfl

theorem cycByte (t : Bool) (b : Byte) : Statement (.cycByte t b) := rfl

theorem timeoutAbandon : Statement (.timeoutAbandon) := rfl

theorem seekStart : Statement (.seekStart) := rfl

theorem seekJunk (b : Byte) : Statement (.seekJunk b) := rfl

theorem hdrCode (b : Byte) : Statement (.hdrCode b) := rfl

theorem hdrLenBad (b : Byte) : Statement (.hdrLenBad b) := rfl

theorem hdrLenOk (b : Byte) : Statement (.hdrLenOk b) := rfl

theorem payByte (b : Byte) : Statement (.payByte b) := rfl

theorem payLast (b : Byte) : Statement (.payLast b) := rfl

theorem ckHi (b : Byte) : Statement (.ckHi b) := rfl

theorem ckLo (b : Byte) : Statement (.ckLo b) := rfl

theorem endOk : Statement (.endOk) := rfl

theorem endBadsum : Statement (.endBadsum) := rfl

theorem endBadmark (b : Byte) : Statement (.endBadmark b) := rfl

theorem decodeProt (raw : U16) : Statement (.decodeProt raw) := rfl

theorem encodeProt (f : ProtectionFlags) : Statement (.encodeProt f) := rfl

theorem decodeFet (raw : Byte) : Statement (.decodeFet raw) := rfl

theorem encodeFet (f : FetStatus) : Statement (.encodeFet f) := rfl

theorem decodeBasic (p : Bytes) : Statement (.decodeBasic p) := rfl

theorem decodeCells (p : Bytes) (count : Byte) : Statement (.decodeCells p count) := rfl

theorem unpackDate (d : U16) : Statement (.unpackDate d) := rfl

theorem checksum (r : Bytes) : Statement (.checksum r) := rfl

theorem validate (s : Bytes) : Statement (.validate s) := rfl

theorem encodeCommand (c : Byte) (p : Bytes) : Statement (.encodeCommand c p) := rfl

theorem slicePayload (f : ValidatedFrame) : Statement (.slicePayload f) := rfl

theorem parseHeader (b0 b1 b2 : Byte) : Statement (.parseHeader b0 b1 b2) := rfl

end Sys2Proof.Laws.Encoding
end

