-- ==== Sys2Proof/Tests/Slice0.lean ====
section
/-! SUPPORT. The model's own tests. Expected values are those of spec/95_test_vectors.md and of the examples and corner
cases in the rules; each theorem's comment names its source. The last section holds the witnesses of the statements. -/

namespace Sys2Proof.Tests

open Sys2Proof.Machine

/-! ### WellFormed refuses an ill-formed term for each check -/

theorem test_wf_seekJunk : (Instr.seekJunk 0xDD).wf = false ∧ (Instr.seekJunk 0x01).wf = true := by decide
theorem test_wf_hdrLenBad : (Instr.hdrLenBad 0).wf = false ∧ (Instr.hdrLenBad 0x1B).wf = true := by decide
theorem test_wf_endBadmark : (Instr.endBadmark 0x77).wf = false ∧ (Instr.endBadmark 0x78).wf = true := by decide
theorem test_wf_slicePayload :
    (Instr.slicePayload ⟨0x03, 1, []⟩).wf = false ∧ (Instr.slicePayload ⟨0x03, 0, []⟩).wf = true := by decide

/-! ### Decoding: words written out from R70 to R72 and R112 -/

-- R79, V1: RST; the other bits are ignored
theorem test_decode_cycReset : decode (.ciw 0b100_0000_0000) = .ok .cycReset ∧ decode (.ciw 0x5DD) = .ok .cycReset := by decide
-- R70: with in_valid = 0 the byte is ignored
theorem test_decode_cycIdle : decode (.ciw 0x000) = .ok .cycIdle ∧ decode (.ciw 0x0DD) = .ok .cycIdle := by decide
theorem test_decode_cycTick : decode (.ciw 0b010_0000_0000) = .ok .cycTick := by decide
-- R79: BYTE and BYTET
theorem test_decode_cycByte :
    decode (.ciw 0b001_1101_1101) = .ok (.cycByte false 0xDD) ∧ decode (.ciw 0x377) = .ok (.cycByte true 0x77) := by decide
-- R111: a condition in a cycle without reset
theorem test_decode_timeoutAbandon :
    decode (.srCondition 0x000 true) = .ok .timeoutAbandon ∧ decode (.srCondition 0x400 true) = .error .conditionFalse := by decide
-- R112, phase 00, sub 00
theorem test_decode_seekStart : decode (.tsw 0b00_00_1101_1101 .any) = .ok .seekStart := by decide
theorem test_decode_seekJunk : decode (.tsw 0b00_00_0111_0111 .any) = .ok (.seekJunk 0x77) := by decide
-- phase 01
theorem test_decode_hdrCode : decode (.tsw 0b01_00_1101_1101 .any) = .ok (.hdrCode 0xDD) := by decide
theorem test_decode_hdrLenBad : decode (.tsw 0b01_01_0001_0001 ⟨16, true⟩) = .ok (.hdrLenBad 17) := by decide
theorem test_decode_hdrLenOk : decode (.tsw 0b01_01_0001_0000 ⟨16, true⟩) = .ok (.hdrLenOk 16) := by decide
-- phase 10
theorem test_decode_payByte : decode (.tsw 0b10_00_0000_1100 .any) = .ok (.payByte 0x0C) := by decide
theorem test_decode_payLast : decode (.tsw 0b10_01_1110_1110 .any) = .ok (.payLast 0xEE) := by decide
-- phase 11
theorem test_decode_ckHi : decode (.tsw 0b11_00_1111_1100 .any) = .ok (.ckHi 0xFC) := by decide
theorem test_decode_ckLo : decode (.tsw 0b11_01_0010_1010 .any) = .ok (.ckLo 0x2A) := by decide
theorem test_decode_endOk : decode (.tsw 0b11_10_0111_0111 ⟨255, true⟩) = .ok .endOk := by decide
theorem test_decode_endBadsum : decode (.tsw 0b11_10_0111_0111 ⟨255, false⟩) = .ok .endBadsum := by decide
theorem test_decode_endBadmark : decode (.tsw 0b11_10_0111_1000 ⟨255, true⟩) = .ok (.endBadmark 0x78) := by decide
-- R71: the TSWs that cannot occur select nothing
theorem test_decode_noTransition :
    decode (.tsw 0x600 .any) = .error .noTransition ∧ decode (.tsw 0xA00 .any) = .error .noTransition ∧
      decode (.tsw 0xF00 .any) = .error .noTransition := by decide

/-- Operand ports with a value of its own on each port. -/
def ports : FuOperands where
  word := 0x1001
  byte0 := 0x03
  byte1 := 0x05
  byte2 := 0x1B
  prot := decodeProtection 0x0003
  fet := decodeFetStatus 0x02
  bytes := [0x0C, 0xE4]
  frame := ⟨0x05, 1, [0xAA]⟩

-- R72: the numbering of the functions
theorem test_decode_decodeProt : decode (.fop 0x1 ports) = .ok (.decodeProt 0x1001) := by decide
theorem test_decode_encodeProt : decode (.fop 0x2 ports) = .ok (.encodeProt (decodeProtection 0x0003)) := by decide
theorem test_decode_decodeFet : decode (.fop 0x3 ports) = .ok (.decodeFet 0x03) := by decide
theorem test_decode_encodeFet : decode (.fop 0x4 ports) = .ok (.encodeFet (decodeFetStatus 0x02)) := by decide
theorem test_decode_decodeBasic : decode (.fop 0x5 ports) = .ok (.decodeBasic [0x0C, 0xE4]) := by decide
theorem test_decode_decodeCells : decode (.fop 0x6 ports) = .ok (.decodeCells [0x0C, 0xE4] 3) := by decide
theorem test_decode_unpackDate : decode (.fop 0x7 ports) = .ok (.unpackDate 0x1001) := by decide
theorem test_decode_checksum : decode (.fop 0x8 ports) = .ok (.checksum [0x0C, 0xE4]) := by decide
theorem test_decode_validate : decode (.fop 0x9 ports) = .ok (.validate [0x0C, 0xE4]) := by decide
theorem test_decode_encodeCommand : decode (.fop 0xA ports) = .ok (.encodeCommand 0x03 [0x0C, 0xE4]) := by decide
theorem test_decode_slicePayload : decode (.fop 0xB ports) = .ok (.slicePayload ⟨0x05, 1, [0xAA]⟩) := by decide
theorem test_decode_parseHeader : decode (.fop 0xC ports) = .ok (.parseHeader 0x03 0x05 0x1B) := by decide
-- R72: FOP 0x0 and 0xD to 0xF select nothing
theorem test_decode_reservedFop :
    decode (.fop 0x0 ports) = .error .reservedFop ∧ decode (.fop 0xD ports) = .error .reservedFop ∧
      decode (.fop 0xE ports) = .error .reservedFop ∧ decode (.fop 0xF ports) = .error .reservedFop := by decide
theorem test_decode_operand_domain :
    decode (.fop 0xB { ports with frame := ⟨0x05, 2, [0xAA]⟩ }) = .error .operandOutsideDomain := by decide

/-! ### Table words (assumption log 12): the decoder's reading, and the next step runs it -/

/-- Whether the step after placing a table word answers a next state. -/
def runsTableWord (nbits w : Nat) : Bool :=
  match step (State.reset.withFetchWord nbits w) with
  | .next _ => true
  | .fault _ => false
  | .refused _ => false

theorem test_table_ciw :
    decodeTableWord 16 0x400 = some .cycReset ∧ decodeTableWord 16 0x000 = some .cycIdle ∧
      decodeTableWord 16 0x200 = some .cycTick ∧ decodeTableWord 16 0x100 = some (.cycByte false 0) := by decide
theorem test_table_tsw_low :
    decodeTableWord 16 0x0DD = some .seekStart ∧ decodeTableWord 16 0x001 = some (.seekJunk 1) ∧
      decodeTableWord 16 0x403 = some (.hdrCode 3) ∧ decodeTableWord 16 0x500 = some (.hdrLenOk 0) := by decide
theorem test_table_tsw_high :
    decodeTableWord 16 0x800 = some (.payByte 0) ∧ decodeTableWord 16 0x900 = some (.payLast 0) ∧
      decodeTableWord 16 0xC00 = some (.ckHi 0) ∧ decodeTableWord 16 0xD00 = some (.ckLo 0) ∧
      decodeTableWord 16 0xE77 = some .endOk ∧ decodeTableWord 16 0xE00 = some (.endBadmark 0) := by decide
theorem test_table_fop :
    decodeTableWord 8 0x1 = some (.decodeProt 0) ∧ decodeTableWord 8 0x9 = some (.validate []) ∧
      decodeTableWord 8 0xC = some (.parseHeader 0 0 0) ∧ decodeTableWord 8 0x0 = none := by decide
theorem test_table_exact_widths :
    decodeTableWord 12 0x400 = some (.hdrCode 0) ∧ decodeTableWord 12 0x000 = some (.seekJunk 0) ∧
      decodeTableWord 11 0x500 = some .cycReset := by decide
theorem test_table_runs_sr :
    ([0x400, 0x000, 0x200, 0x100, 0x0DD, 0x500, 0x800, 0x900, 0xC00, 0xD00, 0xE77, 0xE00].all (runsTableWord 16)) = true := by
  decide
theorem test_table_runs_fop : ([1, 2, 3, 4, 5, 6, 7, 8, 9, 10, 11, 12].all (runsTableWord 8)) = true := by decide

/-! ### Single cycles: V1 to V25 of 95_test_vectors.md, section 5 (`TIMEOUT = 3`, `MAX_PAYLOAD = 255`) -/

/-- What an operation gives, seen through `f`. -/
def seen {α : Type} (i : Instr) (s : State) (f : State → α) : Option α :=
  match exec i s with
  | .next t => some (f t)
  | .fault _ => none
  | .refused _ => none

def r0 : State := State.reset

def inHdr (i : Byte) : State := { r0 with phase := .hdr, idx := i }

def inCke (i : Byte) : State := { r0 with phase := .cke, idx := i }

/-- The state of V20: one byte before the end of frame C. -/
def atEnd : State := { inCke 2 with code := 0x03, sum := 0x0003, ck := 0xFFFD }

def limit16 (s : State) : State := { s with cfg := { s.cfg with maxPayload := 16 } }

-- V1
theorem test_V1 :
    seen .cycReset { r0 with phase := .pay, idx := 5, foValid := true, quiet := true } (fun t => t) = some r0 := by decide
-- V2, V3
theorem test_V2 :
    seen .cycIdle { inHdr 1 with timer := 3 } (fun t => (t.phase, t.idx, t.timer, t.quiet, t.event))
      = some (.seek, 0, 0, true, .err .timeout) := by decide
theorem test_V3 : seen .cycIdle { inHdr 1 with timer := 2 } (fun t => t) = some { inHdr 1 with timer := 2 } := by decide
-- V4, V5, V6
theorem test_V4 :
    seen .cycTick { r0 with phase := .pay, len := 8, timer := 2 } (fun t => (t.timer, t.event)) = some (3, .none) := by decide
theorem test_V5_V6 :
    seen .cycTick r0 (fun t => t) = some r0 ∧
      seen .cycTick { r0 with phase := .pay, timer := 3 } (fun t => (t.phase, t.timer, t.quiet, t.event))
        = some (.seek, 0, true, .err .timeout) := by decide
-- V7, V8
theorem test_V7_V8 :
    seen (.cycByte false 0xDD) { r0 with quiet := true } (fun t => (t.phase, t.idx, t.sum, t.quiet, t.event))
        = some (.hdr, 0, 0, true, .none) ∧
      seen (.cycByte true 0xDD) r0 (fun t => (t.phase, t.timer)) = some (.hdr, 0) := by decide
-- V9, V10
theorem test_V9_V10 :
    seen (.cycByte false 0x01) r0 (fun t => (t.phase, t.quiet, t.event)) = some (.seek, true, .err .badStart) ∧
      seen (.cycByte false 0x77) { r0 with quiet := true } (fun t => t) = some { r0 with quiet := true } := by decide
-- V11 to V13
theorem test_V11 :
    seen (.cycByte false 0xDD) (inHdr 0) (fun t => (t.phase, t.code, t.sum, t.idx)) = some (.hdr, 0xDD, 0x00DD, 1) := by decide
theorem test_V12_V13 :
    seen (.cycByte false 0x00) { inHdr 1 with sum := 3 } (fun t => (t.phase, t.idx, t.len, t.sum)) = some (.cke, 0, 0, 3) ∧
      seen (.cycByte false 0xFF) { inHdr 1 with sum := 3 } (fun t => (t.phase, t.idx, t.len, t.sum))
        = some (.pay, 0, 255, 0x0102) := by decide
-- V14, V15
theorem test_V14 :
    seen (.cycByte false 0x11) (limit16 (inHdr 1)) (fun t => (t.phase, t.idx, t.quiet, t.event))
      = some (.seek, 0, true, .err .lengthMismatch) := by decide
theorem test_V15 :
    seen (.cycByte false 0xDD) (limit16 { inHdr 1 with timer := 2 }) (fun t => (t.phase, t.idx, t.sum, t.timer, t.quiet, t.event))
      = some (.hdr, 0, 0, 0, true, .err .lengthMismatch) := by decide
-- V16, V17
theorem test_V16 :
    seen (.cycByte false 0x0C) { r0 with phase := .pay, len := 8, sum := 0x000C } (fun t => (t.phase, t.buf.read? 0, t.idx, t.sum))
      = some (.pay, some 0x0C, 1, 0x0018) := by decide
theorem test_V17 :
    seen (.cycByte false 0x77) { r0 with phase := .pay, len := 1 } (fun t => (t.phase, t.buf.read? 0, t.idx))
      = some (.cke, some 0x77, 0) := by decide
-- V18, V19
theorem test_V18 : seen (.cycByte false 0xFC) (inCke 0) (fun t => (t.ck, t.idx)) = some (0xFC00, 1) := by decide
theorem test_V19 :
    seen (.cycByte false 0x2A) { inCke 1 with ck := 0xFC00 } (fun t => (t.ck, t.idx)) = some (0xFC2A, 2) := by decide
-- V20 to V23
theorem test_V20 :
    seen (.cycByte false 0x77) atEnd (fun t => (t.phase, t.foValid, t.foCode, t.foLen, t.quiet, t.event))
      = some (.seek, true, 0x03, 0, false, .frame) := by decide
theorem test_V21 :
    seen (.cycByte false 0x77) { atEnd with ck := 0xFFFE } (fun t => (t.phase, t.foValid, t.quiet, t.event))
      = some (.seek, false, true, .err .checksumMismatch) := by decide
theorem test_V22_V23 :
    seen (.cycByte false 0x78) atEnd (fun t => (t.phase, t.quiet, t.event)) = some (.seek, true, .err .badEnd) ∧
      seen (.cycByte false 0xDD) atEnd (fun t => (t.phase, t.idx, t.sum, t.quiet, t.event))
        = some (.hdr, 0, 0, true, .err .badEnd) := by decide
-- V24, V25
theorem test_V24_V25 :
    seen (.cycByte false 0x77) { atEnd with timer := 3 } (fun t => (t.phase, t.foValid, t.quiet, t.event))
        = some (.seek, false, true, .err .timeout) ∧
      seen (.cycByte true 0xDD) { inHdr 1 with timer := 3 } (fun t => (t.phase, t.idx, t.sum, t.timer, t.quiet, t.event))
        = some (.hdr, 0, 0, 0, true, .err .timeout) := by decide

/-! ### Transitions as operations of their own, and where they are not selected -/

-- the examples of R113 and R114
theorem test_seekStart : seen .seekStart { r0 with quiet := true } (fun t => (t.phase, t.quiet)) = some (.hdr, true) := by decide
theorem test_seekJunk : seen (.seekJunk 2) { r0 with quiet := true } (fun t => (t.event, t.quiet)) = some (.none, true) := by decide
-- R119's example, and a copy of two bytes by R122
theorem test_payLast :
    seen (.payLast 0xEE) { r0 with phase := .pay, len := 8, idx := 7 } (fun t => (t.buf.read? 7, t.phase, t.idx))
      = some (some 0xEE, .cke, 0) := by decide
theorem test_endOk_copies :
    seen .endOk { atEnd with len := 2, buf := [(0, 0xAA), (1, 0xBB), (2, 0xCC)], foPayload := [(2, 0x11)] }
      (fun t => (t.foLen, t.foPayload)) = some (2, [(0, 0xAA), (1, 0xBB), (2, 0x11)]) := by decide
theorem test_not_selected : seen (.hdrCode 3) r0 (fun t => t) = none ∧ seen .timeoutAbandon r0 (fun t => t) = none := by decide
theorem test_timeoutAbandon :
    seen .timeoutAbandon { inHdr 1 with timer := 3 } (fun t => (t.phase, t.idx, t.quiet, t.event))
      = some (.seek, 0, true, .err .timeout) := by decide

/-! ### Bitfield Model: 95_test_vectors.md, section 3 -/

/-- The reference payload `p` of section 2. -/
def p27 : Bytes :=
  [0x33, 0x90, 0xFF, 0x6A, 0x13, 0x88, 0x27, 0x10, 0x00, 0x0C, 0x2A, 0x6F, 0x00, 0x00, 0x00, 0x05, 0x10, 0x01,
   0x10, 0x32, 0x03, 0x04, 0x02, 0x0B, 0xA5, 0x0B, 0xB8]

def pCells : Bytes := [0x0C, 0xE4, 0x0C, 0xE9, 0x0C, 0xDF, 0x0C, 0xEE]

-- 3.1
theorem test_decodeProt :
    (decodeProtection 0x1001).cellOv = true ∧ (decodeProtection 0x1001).fetLock = true ∧
      (decodeProtection 0x0400).shortCircuit = true ∧ (decodeProtection 0xE000).reserved = 0b111 ∧
      (decodeProtection 0x0003).cellUv = true ∧ (decodeProtection 0x0003).packOv = false := by decide
theorem test_encodeProt :
    encodeProtection { decodeProtection 0 with reserved := 0b101 } = 0xA000 ∧
      encodeProtection { decodeProtection 0 with cellOv := true, fetLock := true } = 0x1001 := by decide
-- 3.2
theorem test_decodeFet :
    decodeFetStatus 0x81 = ⟨true, false, 0b100000⟩ ∧ decodeFetStatus 0x02 = ⟨false, true, 0⟩ := by decide
theorem test_encodeFet : encodeFetStatus ⟨false, false, 1⟩ = 0x04 ∧ encodeFetStatus ⟨true, false, 0⟩ = 0x01 := by decide
-- 3.3
theorem test_decodeBasic_ok :
    seen (.decodeBasic p27) r0 (fun t => t.fuResult) = some (some (.decodeBasic (.ok {
      voltage := 13200, current := -150, remCapacity := 5000, typCapacity := 10000, cycles := 12, prodDate := 0x2A6F
      balanceStatus := 5, prot := decodeProtection 0x1001, softwareVersion := 16, remCapPct := 50
      fet := decodeFetStatus 0x03, cellCnt := 4, ntcCnt := 2, temps := [2981, 3000] }))) := by decide
theorem test_decodeBasic_errors :
    decodeBasicInfo (p27.take 22) = .err .tooShort ∧ decodeBasicInfo ((p27.take 22).set 21 9) = .err .tooShort ∧
      decodeBasicInfo (p27.take 26) = .err .tooShort ∧ decodeBasicInfo (p27.set 21 9) = .err .invalidCount ∧
      decodeBasicInfo (p27.set 22 5) = .err .invalidCount := by decide
-- 3.4
theorem test_decodeCells_ok :
    decodeCellVoltages pCells 4 = .ok [3300, 3305, 3295, 3310] ∧ decodeCellVoltages [0x0C, 0xE4, 0x0C] 1 = .ok [3300] := by decide
theorem test_decodeCells_errors :
    decodeCellVoltages pCells 5 = .err .tooShort ∧ decodeCellVoltages [] 9 = .err .invalidCount ∧
      decodeCellVoltages [] 0 = .ok [] := by decide
-- 3.5
theorem test_balancing :
    balancing 5 0 = .ok true ∧ balancing 5 1 = .ok false ∧ balancing 0xFFFFFF00 7 = .ok false ∧
      balancing 0x80 7 = .ok true ∧ balancing 5 8 = .error .reservedBalanceBit := by decide
-- 3.6
theorem test_unpackDate :
    seen (.unpackDate 0x2A6F) r0 (fun t => t.fuResult) = some (some (.unpackDate 2021 3 15)) ∧
      seen (.unpackDate 0xFFFF) r0 (fun t => t.fuResult) = some (some (.unpackDate 2127 15 31)) := by decide

/-! ### Frame Codec: 95_test_vectors.md, section 4 -/

-- 4.1
theorem test_checksum :
    checksumOf [0x03, 0x00] = 0xFFFD ∧ checksumOf [0x00, 0x00] = 0x0000 ∧
      checksumOf ([0x04, 0x08] ++ pCells) = 0xFC2A := by decide
set_option maxRecDepth 8000 in
theorem test_checksum_largest : checksumOf ([0xFF, 0xFF] ++ List.replicate 255 0xFF) = 0x0001 := by decide
-- 4.2
theorem test_parseHeader :
    parseHeaderOf 255 0xDD 0x03 0x1B = .ok (0x03, 27) ∧ parseHeaderOf 16 0x00 0x03 0xFF = .err .badStart ∧
      parseHeaderOf 16 0xDD 0x03 0x1B = .err .lengthMismatch ∧ parseHeaderOf 16 0xDD 0x03 0x10 = .ok (0x03, 16) := by decide
-- 4.3
theorem test_validate_ok :
    validateFrame 255 [0xDD, 0x03, 0x00, 0xFF, 0xFD, 0x77] = .ok ⟨0x03, 0, []⟩ ∧
      validateFrame 255 ([0xDD, 0x04, 0x08] ++ pCells ++ [0xFC, 0x2A, 0x77]) = .ok ⟨0x04, 8, pCells⟩ := by decide
theorem test_validate_errors :
    validateFrame 255 [] = .err .badStart ∧ validateFrame 255 [0xDD] = .err .lengthMismatch ∧
      validateFrame 255 [0xDD, 0x03, 0x00, 0x00, 0x00, 0x78] = .err .badEnd ∧
      validateFrame 255 [0xDD, 0x03, 0x00, 0xFE, 0xFD, 0x77] = .err .checksumMismatch ∧
      validateFrame 255 [0xDD, 0x03, 0x00, 0xFF, 0xFD, 0x77, 0x77] = .err .lengthMismatch := by decide
-- 4.4
theorem test_encodeCommand :
    encodeCommandOf 255 0xE1 [0x00, 0x02] = .ok [0xDD, 0xE1, 0x02, 0x00, 0x02, 0xFF, 0x1B, 0x77] ∧
      encodeCommandOf 255 0x03 p27 = .ok ([0xDD, 0x03, 0x1B] ++ p27 ++ [0xFA, 0x6B, 0x77]) := by decide
theorem test_encodeCommand_refused :
    encodeCommandOf 16 0x03 (List.replicate 17 0) = .error .payloadTooLong := by decide
-- R103's examples
theorem test_slicePayload :
    seen (.slicePayload ⟨0x03, 0, []⟩) r0 (fun t => t.fuResult) = some (some (.slicePayload .basic [])) ∧
      seen (.slicePayload ⟨0x05, 1, [7]⟩) r0 (fun t => t.fuResult) = some (some (.slicePayload .other [7])) := by decide
-- R97: a record over MAX_PAYLOAD, or whose payload has not `len` bytes, is no validated frame
theorem test_slicePayload_refused :
    exec (.slicePayload ⟨0x05, 17, List.replicate 17 0⟩) (limit16 r0) = .refused .operandOutsideDomain ∧
      exec (.slicePayload ⟨0x05, 2, [7]⟩) r0 = .refused .operandOutsideDomain := ⟨rfl, rfl⟩

/-- `frame_out` holding frame B (after program P2). -/
def holdsB : State :=
  { r0 with foValid := true, foCode := 0x04, foLen := 8, foPayload := fillFrom (byteAt pCells) 8 [] }

-- 4.5
theorem test_views :
    viewKind r0 = 0 ∧ viewBasic r0 = none ∧ viewKind holdsB = 2 ∧
      viewCells holdsB 4 = some (.ok [3300, 3305, 3295, 3310]) ∧ viewCells holdsB 9 = some (.err .invalidCount) := by decide
theorem test_foRdData :
    foRdData holdsB 0 = 0x0C ∧ foRdData holdsB 7 = 0xEE ∧ foRdData holdsB 8 = 0 ∧ foRdData holdsB 255 = 0 := by decide

/-! ### The step and its moves -/

-- R161: a reset cycle takes a new configuration, any other cycle must show the held one (R151)
theorem test_step_configures :
    (match step { r0 with moves := [cycleMove ⟨7, 16⟩ 0x400] } with | .next t => t.cfg | _ => ⟨0, 0⟩) = ⟨7, 16⟩ ∧
      fetch { r0 with moves := [cycleMove ⟨7, 16⟩ 0x100] } = .error .configurationChanged ∧
      fetch { r0 with moves := [cycleMove ⟨0, 16⟩ 0x400] } = .error .illegalConfiguration := by decide
-- R79's SEND of frame C
theorem test_program_send :
    programMoves ⟨3, 255⟩ [.send 0x03 []]
      = [0x1DD, 0x103, 0x100, 0x1FF, 0x1FD, 0x177].map (cycleMove ⟨3, 255⟩) := by decide

/-! ### Witnesses: for each statement with hypotheses, states and operands that meet them all, clause by clause -/

/-- In `PAY` with one of two bytes received, from code 0x03. -/
def inPay : State :=
  { r0 with phase := .pay, idx := 1, code := 0x03, len := 2, sum := 0x0105, buf := [(0, 0x00), (1, 0xEE)] }

/-- In `PAY` at the first byte of two. -/
def inPay0 : State := { inPay with idx := 0 }

def elapsed : State := { inHdr 1 with timer := 3 }

/-- The state of V21: a bad checksum at the end-marker position. -/
def badSum : State := { atEnd with ck := 0xFFFE }

def illegal : State := { r0 with cfg := ⟨0, 255⟩ }

theorem witness_ResetCycleLeavesResetValues : (0x5DD : BitVec 11) &&& 0x400 = 0x400 := by decide

theorem witness_CycleWordSelectsItsOperation :
    (0x7FF : BitVec 11).getLsbD 10 = true ∧
    ((0x3DD : BitVec 11).getLsbD 10 = false ∧ (0x3DD : BitVec 11).getLsbD 8 = true) ∧
    ((0x2DD : BitVec 11).getLsbD 10 = false ∧ (0x2DD : BitVec 11).getLsbD 8 = false ∧
      (0x2DD : BitVec 11).getLsbD 9 = true) ∧
    (0x0DD : BitVec 11).getLsbD 10 = false ∧ (0x0DD : BitVec 11).getLsbD 8 = false ∧
      (0x0DD : BitVec 11).getLsbD 9 = false := by decide

theorem witness_IdleCycleChangesNothingUnlessElapsed :
    (0x0DD : BitVec 11) &&& 0x700 = 0x000 ∧
    ({ elapsed with timer := 2 }.Inv ∧ ¬ (elapsed.phase ≠ .seek ∧ elapsed.cfg.timeout ≤ 2)) ∧
    (r0.Inv ∧ ¬ (r0.phase ≠ .seek ∧ r0.cfg.timeout ≤ r0.timer)) ∧
    elapsed.Inv ∧ elapsed.phase ≠ .seek ∧ elapsed.cfg.timeout ≤ elapsed.timer := by
  and_intros <;> decide

theorem witness_TickCycleCountsInAFrame :
    (0x2DD : BitVec 11) &&& 0x700 = 0x200 ∧ (r0.Inv ∧ r0.phase = .seek) ∧
    ({ elapsed with timer := 2 }.Inv ∧ elapsed.phase ≠ .seek ∧ 2 < elapsed.cfg.timeout) ∧
    elapsed.Inv ∧ elapsed.phase ≠ .seek ∧ elapsed.cfg.timeout ≤ elapsed.timer := by
  and_intros <;> decide

theorem witness_ByteCyclePerformsTheSelectedTransition :
    (∃ u, r0.cfg.legal = true ∧ r0.phase = .seek ∧ selectTransition r0 0xDD = .ok .seekStart ∧
      exec .seekStart { r0 with event := .none, entered := false } = .next u) ∧
    ∃ u, (inHdr 1).cfg.legal = true ∧ (inHdr 1).timer < (inHdr 1).cfg.timeout ∧
      selectTransition (inHdr 1) 0x1B = .ok (.hdrLenOk 0x1B) ∧
      exec (.hdrLenOk 0x1B) { inHdr 1 with event := .none, entered := false } = .next u :=
  ⟨⟨_, rfl, rfl, rfl, rfl⟩, _, rfl, by decide, rfl, rfl⟩

theorem witness_ByteCycleAlwaysCompletes : r0.Inv ∧ elapsed.Inv ∧ inPay.Inv ∧ atEnd.Inv := by
  and_intros <;> decide

theorem witness_ByteOfTheExpiryCycleIsReadInSeek :
    elapsed.Inv ∧ elapsed.phase ≠ .seek ∧ elapsed.cfg.timeout ≤ elapsed.timer ∧ (0x77 : Byte) ≠ 0xDD := by
  and_intros <;> decide

theorem witness_TimeoutAbandonsTheFrame :
    (0x377 : BitVec 11).getLsbD 10 = false ∧ elapsed.cfg.legal = true ∧ elapsed.phase ≠ .seek ∧
    elapsed.cfg.timeout ≤ elapsed.timer := by decide

theorem witness_SeekStartBeginsAFrame :
    (0x3DD : BitVec 12) &&& 0xCFF = 0x0DD ∧ r0.cfg.legal = true ∧ r0.phase = .seek := by decide

theorem witness_SeekJunkReportsOnce :
    ((0x0DE : BitVec 12) &&& 0xC00 = 0x000 ∧ (0x0DE : BitVec 12) &&& 0xCFF ≠ 0x0DD) ∧
    r0.cfg.legal = true ∧ r0.phase = .seek ∧ (0xDE : Byte) ≠ 0xDD ∧ r0.quiet = false ∧
    { r0 with quiet := true }.quiet = true := by decide

theorem witness_HdrCodeTakesEveryByte :
    (0x4DD : BitVec 12) &&& 0xF00 = 0x400 ∧ (inHdr 0).cfg.legal = true ∧ (inHdr 0).phase = .hdr ∧
    (inHdr 0).idx = 0 := by decide

theorem witness_HdrLenOkOpensThePayload :
    ((0x510 : BitVec 12) &&& 0xF00 = 0x500 ∧ ((0x510 : BitVec 12).extractLsb' 0 8).toNat ≤ 16) ∧
    (limit16 (inHdr 1)).cfg.legal = true ∧ (limit16 (inHdr 1)).phase = .hdr ∧ (limit16 (inHdr 1)).idx = 1 ∧
    (0x10 : Byte).toNat ≤ (limit16 (inHdr 1)).cfg.maxPayload := by decide

theorem witness_HdrLenBadReexaminesItsByte :
    ((0x511 : BitVec 12) &&& 0xF00 = 0x500 ∧ 16 < ((0x511 : BitVec 12).extractLsb' 0 8).toNat) ∧
    (limit16 (inHdr 1)).cfg.legal = true ∧ (limit16 (inHdr 1)).phase = .hdr ∧ (limit16 (inHdr 1)).idx = 1 ∧
    (limit16 (inHdr 1)).cfg.maxPayload < (0x11 : Byte).toNat ∧ (0x11 : Byte) ≠ 0xDD ∧
    (limit16 (inHdr 1)).cfg.maxPayload < (0xDD : Byte).toNat := by decide

theorem witness_PayloadBytesAreStoredAtIdx :
    (0x877 : BitVec 12) &&& 0xF00 = 0x800 ∧ (0x9EE : BitVec 12) &&& 0xF00 = 0x900 ∧
    (inPay0.cfg.legal = true ∧ inPay0.phase = .pay ∧ inPay0.idx.toNat < inPay0.cfg.maxPayload ∧
      inPay0.idx.toNat + 1 < inPay0.len.toNat) ∧
    inPay.cfg.legal = true ∧ inPay.phase = .pay ∧ inPay.idx.toNat < inPay.cfg.maxPayload ∧
      inPay.idx.toNat + 1 = inPay.len.toNat := by decide

theorem witness_ChecksumBytesFillTheRegister :
    (0xCFC : BitVec 12) &&& 0xF00 = 0xC00 ∧ (0xD2A : BitVec 12) &&& 0xF00 = 0xD00 ∧ (inCke 0).cfg.legal = true ∧
    (inCke 0).phase = .cke ∧ (inCke 0).idx = 0 ∧ (inCke 1).phase = .cke ∧ (inCke 1).idx = 1 := by decide

theorem witness_EndOkEmitsTheFrame :
    (⟨255, true⟩ : TswCond).sumGood = true ∧ atEnd.cfg.legal = true ∧ atEnd.phase = .cke ∧ atEnd.idx = 2 ∧
    atEnd.len.toNat ≤ atEnd.cfg.maxPayload ∧ (atEnd.sum.toNat + atEnd.ck.toNat) % 65536 = 0 := by decide

theorem witness_EndBadsumReportsChecksumMismatch :
    (⟨255, false⟩ : TswCond).sumGood = false ∧ badSum.cfg.legal = true ∧ badSum.phase = .cke ∧ badSum.idx = 2 ∧
    (badSum.sum.toNat + badSum.ck.toNat) % 65536 ≠ 0 := by decide

theorem witness_EndBadmarkReexaminesItsByte :
    ((0xE78 : BitVec 12) &&& 0xF00 = 0xE00 ∧ (0xE78 : BitVec 12) ≠ 0xE77) ∧ atEnd.cfg.legal = true ∧
    atEnd.phase = .cke ∧ atEnd.idx = 2 ∧ (0x78 : Byte) ≠ 0x77 ∧ (0x78 : Byte) ≠ 0xDD ∧ (0xDD : Byte) ≠ 0x77 := by
  decide

theorem witness_EveryReachableStateSelectsItsTransition :
    r0.srInv ∧ (inHdr 0).srInv ∧ (limit16 (inHdr 1)).srInv ∧ inPay0.srInv ∧ inPay.srInv ∧ (inCke 0).srInv ∧
    (inCke 1).srInv ∧ atEnd.srInv ∧ badSum.srInv := by
  and_intros <;> decide

theorem witness_UnselectedTransitionIsRefused :
    (r0.cfg.legal = true ∧ (Instr.hdrCode 3).format = .tsw ∧ ∀ b, selectTransition r0 b ≠ .ok (.hdrCode 3)) ∧
    (r0.cfg.legal = true ∧ r0.phase = .seek) ∧ (inHdr 1).cfg.legal = true ∧
    (inHdr 1).timer < (inHdr 1).cfg.timeout := by
  refine ⟨⟨by decide, rfl, fun b => ?_⟩, by decide, by decide, by decide⟩
  rw [select_seek r0 b rfl]
  split <;> simp

theorem witness_ErrorEventLeavesTheFrameRegisters :
    (∃ t, elapsed.Inv ∧ exec (.cycByte true 0xDD) elapsed = .next t ∧ t.event = .err .timeout) ∧
    (∃ t, badSum.Inv ∧ exec (.cycByte false 0x77) badSum = .next t ∧ t.event = .err .checksumMismatch) ∧
    ∃ t, atEnd.Inv ∧ exec (.cycByte false 0xDD) atEnd = .next t ∧ t.event = .err .badEnd :=
  ⟨⟨_, by decide, rfl, rfl⟩, ⟨_, by decide, rfl, rfl⟩, _, by decide, rfl, rfl⟩

theorem witness_FrameOutChangesOnlyWithAFrame :
    (∃ t, exec .cycReset holdsB = .next t ∧ t.event ≠ .frame) ∧
    ∃ t, exec (.cycByte false 0x01) holdsB = .next t ∧ t.event ≠ .frame ∧ Instr.cycByte false 0x01 ≠ .cycReset :=
  ⟨⟨_, rfl, by decide⟩, _, rfl, by decide, by decide⟩

theorem witness_TimerFollowsItsUpdateRule :
    (∃ t, elapsed.Inv ∧ exec .cycIdle elapsed = .next t) ∧ (∃ t, (inHdr 1).Inv ∧ exec .cycTick (inHdr 1) = .next t) ∧
    ∃ t, r0.Inv ∧ exec (.cycByte true 0xDD) r0 = .next t :=
  ⟨⟨_, by decide, rfl⟩, ⟨_, by decide, rfl⟩, _, by decide, rfl⟩

theorem witness_QuietFollowsTheEvents :
    (∃ t, (Instr.cycByte false 0x77).format = .ciw ∧ exec (.cycByte false 0x77) atEnd = .next t ∧ t.event = .frame) ∧
    (∃ t, exec (.cycByte false 0x01) r0 = .next t ∧ t.event = .err .badStart) ∧
    (∃ t, Instr.cycReset.format = .ciw ∧ exec .cycReset badSum = .next t) ∧
    ∃ t, Instr.cycTick.format = .ciw ∧ exec .cycTick inPay = .next t ∧ Instr.cycTick ≠ .cycReset ∧ t.event = .none :=
  ⟨⟨_, rfl, rfl, rfl⟩, ⟨_, rfl, rfl⟩, ⟨_, rfl, rfl⟩, _, rfl, rfl, by decide, rfl⟩

-- frame C, its checksum damaged, its end marker damaged, and a length byte above the limit
theorem witness_ReassemblerAgreesWithValidate :
    (r0.Inv ∧ r0.phase = .seek ∧ [0xDD, 0x03, 0x00, 0xFF, 0xFD].head? = some (0xDD : Byte)) ∧
    (∃ u t, runWords 0 ([0xDD, 0x03, 0x00, 0xFF, 0xFD].map byteWord) r0 = .next ([], u) ∧
      exec (.cycByte false 0x77) u = .next t ∧ t.event = .frame) ∧
    (∃ u t, runWords 0 ([0xDD, 0x03, 0x00, 0xFE, 0xFD].map byteWord) r0 = .next ([], u) ∧
      exec (.cycByte false 0x77) u = .next t ∧ t.event = .err .checksumMismatch) ∧
    (∃ u t, runWords 0 ([0xDD, 0x03, 0x00, 0xFF, 0xFD].map byteWord) r0 = .next ([], u) ∧
      exec (.cycByte false 0xDD) u = .next t ∧ t.event = .err .badEnd) ∧
    (limit16 r0).Inv ∧ ∃ u t, runWords 0 ([0xDD, 0x03].map byteWord) (limit16 r0) = .next ([], u) ∧
      exec (.cycByte false 0x11) u = .next t ∧ t.event = .err .lengthMismatch :=
  ⟨by and_intros <;> decide, ⟨_, _, rfl, rfl, rfl⟩, ⟨_, _, rfl, rfl, rfl⟩, ⟨_, _, rfl, rfl, rfl⟩, by decide, _, _, rfl, rfl, rfl⟩

-- frame C with two ticks before its last byte, and with the third tick before it
theorem witness_DeadlineDecidesTheFrame :
    (r0.Inv ∧ r0.phase = .seek ∧ ([] : Bytes).length ≤ r0.cfg.maxPayload ∧ ciwRst 0x3DD = false ∧ ciwValid 0x3DD = true ∧
      ciwByte 0x3DD = 0xDD) ∧
    ((∀ w ∈ [0x103, 0x300, 0x200, 0x1FF, 0x1FD], ciwRst w = false) ∧
      ([0x103, 0x300, 0x200, 0x1FF, 0x1FD].filter ciwTick).length < r0.cfg.timeout ∧ ciwRst 0x377 = false ∧
      ciwValid 0x377 = true ∧ ciwByte 0x377 = 0x77 ∧
      [0xDD] ++ presentedBytes [0x103, 0x300, 0x200, 0x1FF, 0x1FD] ++ [0x77] = frameOf 0x03 []) ∧
    (∀ w ∈ [0x103, 0x300, 0x200], ciwRst w = false) ∧
    ([0x103, 0x300, 0x200].filter ciwTick).length + 1 = r0.cfg.timeout ∧ ciwRst 0x3FF = false ∧
    ciwTick 0x3FF = true ∧
    ∃ rest, rest ≠ [] ∧ [0xDD] ++ presentedBytes ([0x103, 0x300, 0x200] ++ [0x3FF]) ++ rest = frameOf 0x03 [] :=
  ⟨by and_intros <;> decide, by decide, by decide, by decide, by decide, by decide, [0xFD, 0x77], by decide, by decide⟩

-- before a cycle that abandons, and before one in a frame
theorem witness_IdleCyclesAreNeutral :
    (elapsed.Inv ∧ (∀ v ∈ [] ++ 0x1DD :: [0x103], ciwRst v = false) ∧
      ∃ evs t, runWords 0 ([] ++ 0x1DD :: [0x103]) elapsed = .next (evs, t)) ∧
    r0.Inv ∧ (∀ v ∈ [0x1DD] ++ 0x377 :: [], ciwRst v = false) ∧
    ∃ evs t, runWords 0 ([0x1DD] ++ 0x377 :: []) r0 = .next (evs, t) :=
  ⟨⟨by decide, by decide, _, _, rfl⟩, by decide, by decide, _, _, rfl⟩

theorem witness_FunctionsReadAndWriteNoRegister :
    (Instr.checksum [0xFF]).format = .fop ∧ r0.cfg.legal = true ∧
    (∀ c p, Instr.checksum [0xFF] = .encodeCommand c p → p.length ≤ r0.cfg.maxPayload) ∧
    (∀ f, Instr.checksum [0xFF] = .slicePayload f → f.payload.length = f.len.toNat ∧ f.len.toNat ≤ r0.cfg.maxPayload) ∧
    (∀ c p, Instr.encodeCommand 0x03 [] = .encodeCommand c p → p.length ≤ r0.cfg.maxPayload) ∧
    ∀ f, Instr.slicePayload ⟨5, 1, [7]⟩ = .slicePayload f →
      f.payload.length = f.len.toNat ∧ f.len.toNat ≤ r0.cfg.maxPayload :=
  ⟨rfl, by decide, fun _ _ h => (nomatch h), fun _ h => (nomatch h), fun _ _ h => by cases h; decide,
    fun _ h => by cases h; decide⟩

theorem witness_BasicInfoIsDecodedFieldByField :
    (∀ i, (fun i => (p27.getD i 0).toNat) i = (p27.getD i 0).toNat) ∧ (p27.take 22).length < 23 ∧
    (23 ≤ (p27.set 21 9).length ∧ 8 < ((p27.set 21 9).getD 21 0).toNat) ∧
    (23 ≤ (p27.set 22 5).length ∧ 4 < ((p27.set 22 5).getD 22 0).toNat) ∧
    (23 ≤ (p27.take 26).length ∧ ((p27.take 26).getD 21 0).toNat ≤ 8 ∧ ((p27.take 26).getD 22 0).toNat ≤ 4 ∧
      (p27.take 26).length < 23 + 2 * ((p27.take 26).getD 22 0).toNat) ∧
    (p27.getD 21 0).toNat ≤ 8 ∧ (p27.getD 22 0).toNat ≤ 4 ∧ 23 + 2 * (p27.getD 22 0).toNat ≤ p27.length :=
  ⟨fun _ => rfl, by decide⟩

theorem witness_BalancingReadsTheCellBits : 7 < 8 ∧ 8 ≤ 8 := by decide

theorem witness_CellVoltagesAreDecodedInOrder :
    8 < (9 : Byte).toNat ∧ ((5 : Byte).toNat ≤ 8 ∧ pCells.length < 2 * (5 : Byte).toNat) ∧
    (4 : Byte).toNat ≤ 8 ∧ 2 * (4 : Byte).toNat ≤ pCells.length := by decide

theorem witness_ChecksumCheckHoldsExactlyForTheChecksum : (List.replicate 255 (0xFF : Byte)).length ≤ 255 :=
  Nat.le_of_eq List.length_replicate

theorem witness_HeaderIsParsedInOrder :
    r0.cfg.legal = true ∧ (0xDC : Byte) ≠ 0xDD ∧
    ((limit16 r0).cfg.legal = true ∧ (limit16 r0).cfg.maxPayload < (0x11 : Byte).toNat) ∧
    (0x10 : Byte).toNat ≤ (limit16 r0).cfg.maxPayload := by decide

theorem witness_ValidateChecksInOrder :
    r0.cfg.legal = true ∧ 0 = (([0xDD, 0x03, 0x00, 0xFF, 0xFD, 0x77] : Bytes).getD 2 0).toNat := by decide

theorem witness_EncodeCommandBuildsTheFrame :
    (limit16 r0).cfg.legal = true ∧ (List.replicate 16 (0 : Byte)).length ≤ (limit16 r0).cfg.maxPayload ∧
    (limit16 r0).cfg.maxPayload < (List.replicate 17 (0 : Byte)).length := by decide

theorem witness_EncodedCommandsValidate :
    ∃ t, r0.cfg.legal = true ∧ ([] : Bytes).length ≤ r0.cfg.maxPayload ∧ exec (.encodeCommand 0x03 []) r0 = .next t ∧
      t.fuResult = some (.encodeCommand [0xDD, 0x03, 0x00, 0xFF, 0xFD, 0x77]) :=
  ⟨_, by decide, by decide, rfl, by decide⟩

theorem witness_EverySingleBitErrorIsDetected :
    (255 : Nat) ≤ 255 ∧ validateFrame 255 [0xDD, 0x03, 0x00, 0xFF, 0xFD, 0x77] = .ok ⟨0x03, 0, []⟩ ∧
    5 < ([0xDD, 0x03, 0x00, 0xFF, 0xFD, 0x77] : Bytes).length ∧ 7 < 8 := by decide

theorem witness_SliceKindComesFromTheCode :
    (⟨0x05, 1, [0xAA]⟩ : ValidatedFrame).payload.length = (⟨0x05, 1, [0xAA]⟩ : ValidatedFrame).len.toNat := by decide

theorem witness_SliceKindComesFromTheCode_limit :
    (limit16 r0).cfg.legal = true ∧
    ((⟨0x05, 16, List.replicate 16 0⟩ : ValidatedFrame).payload.length = (16 : Byte).toNat ∧
      (16 : Byte).toNat ≤ (limit16 r0).cfg.maxPayload) ∧
    (limit16 r0).cfg.maxPayload < (17 : Byte).toNat ∧
    (⟨0x05, 2, [7]⟩ : ValidatedFrame).payload.length ≠ (2 : Byte).toNat := by decide

theorem witness_ProducedFramesAreValidatedFrames :
    (∃ t, r0.cfg.legal = true ∧ exec (.validate [0xDD, 0x03, 0x00, 0xFF, 0xFD, 0x77]) r0 = .next t ∧
      t.fuResult = some (.validate (.ok ⟨0x03, 0, []⟩))) ∧
    holdsB.Inv ∧ holdsB.foValid = true :=
  ⟨⟨_, by decide, rfl, by decide⟩, by decide, by decide⟩

theorem witness_EventOutputsFollowTheCodes :
    r0.event = .none ∧ { r0 with event := .frame }.event = .frame ∧
    { r0 with event := .err .badStart }.event = .err .badStart ∧ { r0 with event := .err .badEnd }.event = .err .badEnd ∧
    { r0 with event := .err .checksumMismatch }.event = .err .checksumMismatch ∧
    { r0 with event := .err .lengthMismatch }.event = .err .lengthMismatch ∧
    { r0 with event := .err .timeout }.event = .err .timeout := by decide

theorem witness_ReadPortShowsTheEmittedBytes :
    (holdsB.foValid = true ∧ (7 : Byte).toNat < holdsB.foLen.toNat ∧
      holdsB.foPayload.read? (7 : Byte).toNat = some 0xEE) ∧
    r0.foValid = false ∧ holdsB.foLen.toNat ≤ (8 : Byte).toNat := by decide

theorem witness_ViewsDecodeFrameOut :
    r0.foValid = false ∧ (holdsB.foValid = true ∧ holdsB.foCode = 0x04) ∧
    ({ holdsB with foCode := 0x03 }.foValid = true ∧ { holdsB with foCode := 0x03 }.foCode = 0x03) ∧
    ({ holdsB with foCode := 0x05 }.foValid = true ∧ (0x05 : Byte) ≠ 0x03 ∧ (0x05 : Byte) ≠ 0x04) ∧
    7 < holdsB.foLen.toNat ∧ holdsB.foPayload.read? 7 = some 0xEE := by decide

theorem witness_StepRunsTheDecodedOperation :
    r0.moves = [] ∧
    ({ r0 with moves := [plainCycle r0 0x1DD] }.moves = .cycle ⟨0x1DD, 0, 0, r0.cfg⟩ :: [] ∧ r0.cfg.legal = true) ∧
    ({ r0 with moves := [cycleMove ⟨7, 16⟩ 0x400] }.moves = .cycle ⟨0x400, 0, 0, ⟨7, 16⟩⟩ :: [] ∧
      (⟨7, 16⟩ : Config.Params).legal = true ∧ (0x400 : BitVec 11).getLsbD 10 = true) ∧
    { r0 with moves := [.call 0x8 ports] }.moves = .call 0x8 ports :: [] ∧
    decode (.fop 0x8 ports) = .ok (.checksum [0x0C, 0xE4]) := by decide

theorem witness_ReservedSelectorsAndBadConfigurationsAreRefused :
    { r0 with moves := [.call 0xD ports] }.moves = .call 0xD ports :: [] ∧
    (⟨0, 255⟩ : Config.Params).timeout = 0 ∧ 65535 < (⟨65536, 255⟩ : Config.Params).timeout ∧
    255 < (⟨3, 256⟩ : Config.Params).maxPayload ∧
    { r0 with moves := [cycleMove ⟨65535, 0⟩ 0x000] }.moves = .cycle ⟨0x000, 0, 0, ⟨65535, 0⟩⟩ :: [] ∧
    (0x000 : BitVec 11).getLsbD 10 = false ∧ (⟨65535, 0⟩ : Config.Params) ≠ r0.cfg ∧
    illegal.cfg.timeout = 0 ∧ Instr.cycIdle ≠ .cycReset ∧ Instr.cycIdle.format ≠ .fop := by decide

theorem witness_DecodeInvertsEncode :
    (Instr.hdrLenBad 1).wf = true ∧ (Instr.seekJunk 0xDE).wf = true ∧ (Instr.slicePayload ⟨5, 1, [0]⟩).wf = true := by
  decide

theorem witness_DecodedOperationsAreWellFormed : decode (.tsw 0x511 ⟨16, true⟩) = .ok (.hdrLenBad 0x11) := by decide

theorem witness_StepKeepsTheInvariant :
    ∃ t, { inPay with moves := [plainCycle inPay 0x177] }.Inv ∧
      step { inPay with moves := [plainCycle inPay 0x177] } = .next t :=
  ⟨_, by decide, rfl⟩

theorem witness_StepKeepsAllReadBytesWritten :
    ∃ t, { inPay with moves := [plainCycle inPay 0x177] }.Inv ∧
      { inPay with moves := [plainCycle inPay 0x177] }.allWritten ∧ holdsB.allWritten ∧
      step { inPay with moves := [plainCycle inPay 0x177] } = .next t :=
  ⟨_, by decide, by decide, by decide, rfl⟩

theorem witness_StepKeepsTheSum :
    ∃ t, { inPay with sum := 0x0005, moves := [plainCycle inPay 0x177] }.Inv ∧
      { inPay with sum := 0x0005, moves := [plainCycle inPay 0x177] }.sumTracks ∧
      step { inPay with sum := 0x0005, moves := [plainCycle inPay 0x177] } = .next t :=
  ⟨_, by decide, by decide, rfl⟩

theorem witness_StepNeverFaults :
    (r0.Inv ∧ r0.moves = []) ∧ { atEnd with moves := [plainCycle atEnd 0x177] }.Inv ∧
    { atEnd with moves := [plainCycle atEnd 0x177] }.moves = .cycle ⟨0x177, 0, 0, atEnd.cfg⟩ :: [] := by
  and_intros <;> decide

-- states that differ at a byte beyond those received
theorem witness_DontCareBytesAreNeverRead :
    (∃ t, inPay.Inv ∧ { inPay with buf := [(0, 0x00), (1, 0x11)] }.Inv ∧ step inPay = .next t) ∧
    AgreeOnDefined inPay { inPay with buf := [(0, 0x00), (1, 0x11)] } :=
  ⟨⟨_, by decide, by decide, rfl⟩, by unfold AgreeOnDefined; decide⟩

end Sys2Proof.Tests
end

