-- ==== Sys2Proof/Proofs/Scope.lean ====
section
/-! PROOFS. The family `00_scope.md`: what the functions of FC and BM answer (R13), and what is refused for a reserved
selector (R72) or for a configuration that is illegal (R8) or changes outside reset (R151). -/

namespace Sys2Proof.Machine

/-! ### The functions that read the configuration, where they answer -/

theorem exec_validate_of_legal (s : State) (bs : Bytes) (hl : s.cfg.legal = true) :
    exec (.validate bs) s = .next { s with fuResult := some (.validate (validateFrame s.cfg.maxPayload bs)) } :=
  withLegalConfig_of_legal s _ hl

theorem exec_parseHeader_of_legal (s : State) (b0 b1 b2 : Byte) (hl : s.cfg.legal = true) :
    exec (.parseHeader b0 b1 b2) s =
      .next { s with fuResult := some (.parseHeader (parseHeaderOf s.cfg.maxPayload b0 b1 b2)) } :=
  withLegalConfig_of_legal s _ hl

theorem encodeCommandOf_of_le {m : Nat} (c : Byte) {p : Bytes} (h : p.length ≤ m) :
    encodeCommandOf m c p = .ok (frameOf c p) :=
  if_neg (Nat.not_lt.2 h)

theorem exec_encodeCommand_of_le (s : State) (c : Byte) (p : Bytes) (hl : s.cfg.legal = true)
    (h : p.length ≤ s.cfg.maxPayload) :
    exec (.encodeCommand c p) s = .next { s with fuResult := some (.encodeCommand (frameOf c p)) } := by
  rw [exec, execEncodeCommand, withLegalConfig_of_legal s _ hl, encodeCommandOf_of_le c h]
  rfl

theorem exec_slicePayload_of_validated (s : State) (f : ValidatedFrame) (hl : s.cfg.legal = true)
    (h : f.payload.length = f.len.toNat ∧ f.len.toNat ≤ s.cfg.maxPayload) :
    exec (.slicePayload f) s =
      .next { s with fuResult := some (.slicePayload (sliceKindOf f.code) f.payload) } := by
  rw [exec, execSlicePayload, withLegalConfig_of_legal s _ hl, slicePayloadOf_eq, if_pos h]
  rfl

/-- Settles O29: eight functions answer from their operands alone, the other four from `cfg` as well. -/
theorem functionsReadAndWriteNoRegister : Obligations.FunctionsReadAndWriteNoRegister := by
  intro i s hf hl hfits hvalid
  cases i with
  | decodeProt | encodeProt | decodeFet | encodeFet | decodeBasic | decodeCells | unpackDate | checksum =>
    exact ⟨_, fun _ _ => rfl⟩
  | validate bs =>
    exact ⟨.validate (validateFrame s.cfg.maxPayload bs), fun s' hc => hc ▸ exec_validate_of_legal s' bs (hc ▸ hl)⟩
  | parseHeader b0 b1 b2 =>
    exact ⟨.parseHeader (parseHeaderOf s.cfg.maxPayload b0 b1 b2),
      fun s' hc => hc ▸ exec_parseHeader_of_legal s' b0 b1 b2 (hc ▸ hl)⟩
  | encodeCommand c p =>
    exact ⟨_, fun s' hc => exec_encodeCommand_of_le s' c p (hc ▸ hl) (hc ▸ hfits c p rfl)⟩
  | slicePayload f =>
    exact ⟨_, fun s' hc => exec_slicePayload_of_validated s' f (hc ▸ hl) (hc ▸ hvalid f rfl)⟩
  | _ => exact nomatch hf

/-! ### Refusals at the move -/

/-- The legal ranges of R8. -/
theorem legal_iff (p : Config.Params) :
    p.legal = true ↔ 1 ≤ p.timeout ∧ p.timeout ≤ 65535 ∧ p.maxPayload ≤ 255 := by
  simp [Config.Params.legal, and_assoc]

theorem legal_eq_false_iff (p : Config.Params) :
    p.legal = false ↔ p.timeout = 0 ∨ 65535 < p.timeout ∨ 255 < p.maxPayload := by
  rw [← Bool.not_eq_true, legal_iff]
  omega

theorem decode_reservedFop {fop : BitVec 4} (ops : FuOperands) (h : fop = 0x0 ∨ fop = 0xD ∨ fop = 0xE ∨ fop = 0xF) :
    decode (.fop fop ops) = .error .reservedFop := by
  rcases h with rfl | rfl | rfl | rfl <;> rfl

theorem sampleConfig_of_illegal (ports : CyclePorts) (s : State) (h : ports.params.legal = false) :
    sampleConfig ports s = .error .illegalConfiguration := by
  simp [sampleConfig, h]

theorem sampleConfig_of_changed (ports : CyclePorts) (s : State) (hl : ports.params.legal = true)
    (hr : ciwRst ports.ciw = false) (hc : ports.params ≠ s.cfg) :
    sampleConfig ports s = .error .configurationChanged := by
  simp [sampleConfig, hl, hr, hc]

/-- A call whose selector is rejected is refused, for the reason of the rejection. -/
theorem step_call_of_reject {s : State} {rest : List HostMove} {fop : BitVec 4} {ops : FuOperands} {e : Reject}
    (hm : s.moves = .call fop ops :: rest) (h : decode (.fop fop ops) = .error e) :
    step s = .refused (refusalOf e) := by
  simp [step, fetch_cons s _ rest hm, fetchMove, h]

/-- A cycle whose configuration is not taken is refused. -/
theorem step_cycle_of_refused {s : State} {rest : List HostMove} {ports : CyclePorts} {r : Refusal}
    (hm : s.moves = .cycle ports :: rest) (h : sampleConfig ports { s with moves := rest } = .error r) :
    step s = .refused r := by
  simp [step, fetch_cons s _ rest hm, fetchMove, h]

/-! ### Refusals in an illegal configuration -/

/-- Every operation of the SR but the reset stands behind the check of the configuration. -/
theorem exec_eq_withLegalConfig (i : Instr) (s : State) (hr : i ≠ .cycReset) (hf : i.format ≠ .fop) :
    ∃ r, exec i s = withLegalConfig s r := by
  cases i with
  | cycReset => exact absurd rfl hr
  | decodeProt | encodeProt | decodeFet | encodeFet | decodeBasic | decodeCells | unpackDate | checksum
  | validate | encodeCommand | slicePayload | parseHeader => exact absurd rfl hf
  | _ => exact ⟨_, rfl⟩

theorem exec_of_illegal (i : Instr) (s : State) (hl : s.cfg.legal = false) (hr : i ≠ .cycReset)
    (hf : i.format ≠ .fop) : exec i s = .refused .illegalConfiguration := by
  obtain ⟨r, he⟩ := exec_eq_withLegalConfig i s hr hf
  exact he.trans (withLegalConfig_of_illegal s r hl)

/-- Settles O51: the selector and the configuration shown are refused at the move, an illegal configuration that is
held by the check in each operation that reads it. -/
theorem reservedSelectorsAndBadConfigurationsAreRefused :
    Obligations.ReservedSelectorsAndBadConfigurationsAreRefused := by
  refine ⟨fun s rest fop ops hm hfop => ?reserved, fun s rest ports hm => ⟨fun hbad => ?shownIllegal, ?changed⟩,
    fun s hbad => ?heldIllegal⟩
  case reserved => exact step_call_of_reject hm (decode_reservedFop ops hfop)
  case shownIllegal =>
    exact step_cycle_of_refused hm (sampleConfig_of_illegal ports _ ((legal_eq_false_iff _).2 hbad))
  case changed =>
    intro ht1 ht2 hp hrst hne
    exact step_cycle_of_refused hm (sampleConfig_of_changed ports _ ((legal_iff _).2 ⟨ht1, ht2, hp⟩) hrst hne)
  case heldIllegal =>
    have hl : s.cfg.legal = false := (legal_eq_false_iff _).2 hbad
    have hguard := fun r => withLegalConfig_of_illegal s r hl
    exact ⟨fun i => exec_of_illegal i s hl, fun _ => hguard _, fun _ _ => hguard _, fun _ => hguard _,
      fun _ _ _ => hguard _⟩

end Sys2Proof.Machine
end

