-- ==== Sys2Proof/Proofs/State.lean ====
section
/-! PROOFS. The family `10_state.md`: the reset values (R35), the read port (R29), what a step runs (R70, R72, R151),
the frame and the `quiet` register (R23, R24), the invariants every step keeps (R27, R20), and that no don't-care byte
is read (R33). Two inversion lemmas carry the proofs about steps: what a byte does (`ByteStep`) and what a whole step
does (`StepCase`). -/

namespace Sys2Proof.Machine

/-! ### Reset and the read port -/

/-- Settles O2: the table is read off `State.reset`, whose arrays list no byte. -/
theorem resetStateHoldsTheTable : Obligations.ResetStateHoldsTheTable :=
  ⟨rfl, rfl, rfl, rfl, rfl, rfl, rfl, rfl, rfl, rfl, rfl, rfl, fun _ => rfl, fun _ => rfl⟩

theorem sumTracks_of_seek {s : State} (hp : s.phase = .seek) : s.sumTracks := by
  simp [State.sumTracks, hp]

/-- Settles O55: in `SEEK`, with no frame in `frame_out`, only the index, the timer, the empty arrays and the
configuration are left to check. -/
theorem resetMeetsTheInvariants : Obligations.ResetMeetsTheInvariants := by
  refine ⟨⟨?srInv, reset_arraysWf, by decide, rfl⟩, ?allWritten, sumTracks_of_seek rfl⟩
  case srInv => decide
  case allWritten => simp [State.allWritten, State.reset]

/-- Settles O48: the two branches of the port. -/
theorem readPortShowsTheEmittedBytes : Obligations.ReadPortShowsTheEmittedBytes := by
  refine fun s a => ⟨fun hv ha v hr => ?within, fun hno => if_neg ?beyond⟩
  case within => rw [foRdData, if_pos ⟨hv, ha⟩, foPayloadRead, hr, Option.getD_some]
  case beyond =>
    rintro ⟨hv, ha⟩
    rcases hno with hf | hge
    · exact absurd hv (by simp [hf])
    · omega

/-! ### What a step runs -/

theorem decodeCiw_of_rst {w : BitVec 11} (h : ciwRst w = true) : decodeCiw w = .cycReset := if_pos h

/-- Without `rst` a CIW selects one of the other three cycles. -/
theorem decodeCiw_of_not_rst {w : BitVec 11} (h : ciwRst w = false) :
    decodeCiw w = .cycIdle ∨ decodeCiw w = .cycTick ∨ ∃ tick b, decodeCiw w = .cycByte tick b := by
  unfold decodeCiw
  rw [if_neg (by simp [h])]
  split
  · exact .inr (.inr ⟨_, _, rfl⟩)
  · split
    · exact .inr (.inl rfl)
    · exact .inl rfl

theorem fetchMove_cycle_rst {p : CyclePorts} {s : State} (hl : p.params.legal = true) (hr : ciwRst p.ciw = true) :
    fetchMove (.cycle p) s = .ok (.cycReset, { s with cfg := p.params }) := by
  simp [fetchMove, sampleConfig, hl, hr, decodeCiw_of_rst]

theorem fetchMove_call {fop : BitVec 4} {ops : FuOperands} {i : Instr} (s : State)
    (h : decode (.fop fop ops) = .ok i) : fetchMove (.call fop ops) s = .ok (i, s) := by
  simp [fetchMove, h]

/-- Settles O50: `fetch` for each kind of move. -/
theorem stepRunsTheDecodedOperation : Obligations.StepRunsTheDecodedOperation := by
  refine fun s rest => ⟨fun hm => ?none, fun ports hm hl hheld => ?held, fun ports hm hl hr => ?reset,
    fun fop ops i hm hd => ?call⟩
  case none => exact step_of_fetch _ _ _ (fetch_nil s hm)
  case held =>
    exact step_of_fetch _ _ _ ((fetch_cons s _ rest hm).trans (fetchMove_cycle_held ports _ (hheld ▸ hl) hheld))
  case reset => exact step_of_fetch _ _ _ ((fetch_cons s _ rest hm).trans (fetchMove_cycle_rst hl hr))
  case call => exact step_of_fetch _ _ _ ((fetch_cons s _ rest hm).trans (fetchMove_call _ hd))

/-! ### What an operation that answers a next state did -/

/-- A function answers from its operands and the configuration, or is refused (R13). -/
theorem exec_fop_cases (i : Instr) (s : State) (hf : i.format = .fop) :
    (∃ r, ∀ s' : State, s'.cfg = s.cfg → exec i s' = .next { s' with fuResult := some r }) ∨
    ∃ e, exec i s = .refused e := by
  cases hl : s.cfg.legal
  case true =>
    cases i with
    | encodeCommand c p =>
      by_cases hp : p.length ≤ s.cfg.maxPayload
      · exact .inl ⟨_, fun s' hc => exec_encodeCommand_of_le s' c p (hc ▸ hl) (hc ▸ hp)⟩
      · refine .inr ⟨.payloadTooLong, ?_⟩
        rw [exec, execEncodeCommand, withLegalConfig_of_legal s _ hl, encodeCommandOf, if_pos (Nat.lt_of_not_le hp)]
    | slicePayload f =>
      by_cases hv : f.payload.length = f.len.toNat ∧ f.len.toNat ≤ s.cfg.maxPayload
      · exact .inl ⟨_, fun s' hc => exec_slicePayload_of_validated s' f (hc ▸ hl) (hc ▸ hv)⟩
      · refine .inr ⟨.operandOutsideDomain, ?_⟩
        rw [exec, execSlicePayload, withLegalConfig_of_legal s _ hl, slicePayloadOf_eq, if_neg hv]
    | _ =>
      exact .inl (functionsReadAndWriteNoRegister _ s hf hl (fun _ _ h => nomatch h) fun _ h => nomatch h)
  case false =>
    cases i with
    | decodeProt | encodeProt | decodeFet | encodeFet | decodeBasic | decodeCells | unpackDate | checksum =>
      exact .inl ⟨_, fun _ _ => rfl⟩
    | validate | encodeCommand | slicePayload | parseHeader =>
      exact .inr ⟨_, withLegalConfig_of_illegal s _ hl⟩
    | _ => exact nomatch hf

theorem exec_fop_next {i : Instr} {s t : State} (hf : i.format = .fop) (h : exec i s = .next t) :
    ∃ r, t = { s with fuResult := some r } ∧
      ∀ s' : State, s'.cfg = s.cfg → exec i s' = .next { s' with fuResult := some r } := by
  rcases exec_fop_cases i s hf with ⟨r, hr⟩ | ⟨e, he⟩
  · exact ⟨r, by injection h.symm.trans (hr s rfl), hr⟩
  · exact nomatch h.symm.trans he

/-- A transition run as an operation of its own does what it does in a cycle (R112). -/
theorem exec_tsw_next {i : Instr} {s t : State} (hf : i.format = .tsw) (h : exec i s = .next t) :
    performTransition i s = .next t := by
  have guarded : ∀ {b r}, whenSelected i b s r = .next t → r = .next t :=
    fun hw => (whenSelected_next i _ s t _ hw).2.2
  cases i with
  | seekStart | seekJunk | hdrCode | hdrLenBad | hdrLenOk | payByte | payLast | ckHi | ckLo | endOk | endBadsum
  | endBadmark => exact guarded h
  | _ => exact nomatch hf

theorem exec_timeoutAbandon_next {s t : State} (h : exec .timeoutAbandon s = .next t) : t = doTimeoutAbandon s := by
  rw [exec, execTimeoutAbandon, withLegalConfig] at h
  split at h
  · split at h
    · injection h with h; exact h.symm
    · exact nomatch h
  · exact nomatch h

theorem byteTransition_next {b : Byte} {s t : State} (h : byteTransition b s = .next t) :
    ∃ i, performTransition i s = .next t := by
  unfold byteTransition at h
  split at h
  · exact ⟨_, h⟩
  · exact nomatch h

/-! ### `frame_out` and `quiet` -/

/-- `frame_out` as one value (R24). -/
def State.frameOut (s : State) : Bool × Byte × Byte × Memory := (s.foValid, s.foCode, s.foLen, s.foPayload)

@[simp] theorem reexamine_frameOut (b : Byte) (s : State) : (reexamine b s).frameOut = s.frameOut := by
  simp [State.frameOut]

@[simp] theorem abandonIfElapsed_frameOut (s : State) : (abandonIfElapsed s).frameOut = s.frameOut := by
  unfold abandonIfElapsed; split <;> rfl

/-- END_OK alone writes `frame_out`, and it raises FRAME. -/
theorem performTransition_frameOut {i : Instr} {s t : State} (h : performTransition i s = .next t)
    (he : t.event ≠ .frame) : t.frameOut = s.frameOut := by
  cases i with
  | seekStart | seekJunk | hdrCode | hdrLenOk | ckHi | ckLo | endBadsum => cases h; rfl
  | hdrLenBad b | endBadmark b => cases h; exact reexamine_frameOut b _
  | payByte | payLast =>
    simp only [performTransition, doPayByte, doPayLast] at h
    split at h <;> cases h
    rfl
  | endOk =>
    simp only [performTransition, doEndOk] at h
    split at h <;> cases h
    exact absurd rfl he
  | _ => exact nomatch h

theorem exec_frameOut {i : Instr} {s t : State} (h : exec i s = .next t) (he : t.event ≠ .frame)
    (hr : i ≠ .cycReset) : t.frameOut = s.frameOut := by
  cases hf : i.format
  case tsw => exact performTransition_frameOut (exec_tsw_next hf h) he
  case fop =>
    obtain ⟨r, rfl, -⟩ := exec_fop_next hf h
    rfl
  case srCondition =>
    cases i with
    | timeoutAbandon => rw [exec_timeoutAbandon_next h]; rfl
    | _ => exact nomatch hf
  case ciw =>
    cases i with
    | cycReset => exact absurd rfl hr
    | cycIdle | cycTick =>
      obtain ⟨-, rfl⟩ := cycleNoByte_inv _ s t h
      exact abandonIfElapsed_frameOut (beginCycle s)
    | cycByte tick b =>
      obtain ⟨-, v, hv, rfl⟩ := cycleWithByte_inv tick b s t h
      obtain ⟨j, hj⟩ := byteTransition_next hv
      exact (performTransition_frameOut hj he).trans (abandonIfElapsed_frameOut (beginCycle s))
    | _ => exact nomatch hf

/-- Settles O23: every other operation keeps the four fields at once; a reset keeps the bytes by its definition. -/
theorem frameOutChangesOnlyWithAFrame : Obligations.FrameOutChangesOnlyWithAFrame := by
  intro i s t h he
  by_cases hr : i = .cycReset
  · subst hr
    cases h
    exact ⟨rfl, fun hne => absurd rfl hne⟩
  · obtain ⟨hvalid, hcode, hlen, hpayload⟩ := by simpa [State.frameOut] using exec_frameOut h he hr
    exact ⟨hpayload, fun _ => ⟨hvalid, hcode, hlen⟩⟩

/-- R23 in the course of a cycle: what `quiet` is, given the event so far and the value `q` it began with. -/
def QuietFollows (q : Bool) (s : State) : Prop :=
  match s.event with
  | .none => s.quiet = q
  | .frame => s.quiet = false
  | .err _ => s.quiet = true

theorem doSeekJunk_quietFollows {q : Bool} {s : State} (h : QuietFollows q s) : QuietFollows q (doSeekJunk s) := by
  cases hq : s.quiet
  case false => simp [QuietFollows, hq]
  case true => simpa [QuietFollows, hq] using h

theorem reexamine_quietFollows {q : Bool} {s : State} (b : Byte) (h : QuietFollows q s) :
    QuietFollows q (reexamine b s) := by
  rcases reexamine_cases b s with ⟨-, he⟩ | ⟨-, he⟩ <;> rw [he]
  · exact h
  · exact doSeekJunk_quietFollows h

theorem performTransition_quietFollows {q : Bool} {i : Instr} {s t : State} (h : QuietFollows q s)
    (ht : performTransition i s = .next t) : QuietFollows q t := by
  cases i with
  | seekStart | hdrCode | hdrLenOk | ckHi | ckLo => cases ht; exact h
  | seekJunk => cases ht; exact doSeekJunk_quietFollows h
  | endBadsum => cases ht; rfl
  | hdrLenBad b | endBadmark b => cases ht; exact reexamine_quietFollows b rfl
  | payByte | payLast =>
    simp only [performTransition, doPayByte, doPayLast] at ht
    split at ht <;> cases ht
    exact h
  | endOk =>
    simp only [performTransition, doEndOk] at ht
    split at ht <;> cases ht
    rfl
  | _ => exact nomatch ht

theorem abandonIfElapsed_quietFollows {q : Bool} {s : State} (h : QuietFollows q s) :
    QuietFollows q (abandonIfElapsed s) := by
  unfold abandonIfElapsed
  split
  · rfl
  · exact h

theorem cycle_quietFollows {i : Instr} {s t : State} (hf : i.format = .ciw) (h : exec i s = .next t)
    (hr : i ≠ .cycReset) : QuietFollows s.quiet t := by
  have hstart : QuietFollows s.quiet (abandonIfElapsed (beginCycle s)) := abandonIfElapsed_quietFollows rfl
  cases i with
  | cycReset => exact absurd rfl hr
  | cycIdle | cycTick =>
    obtain ⟨-, rfl⟩ := cycleNoByte_inv _ s t h
    exact hstart
  | cycByte tick b =>
    obtain ⟨-, v, hv, rfl⟩ := cycleWithByte_inv tick b s t h
    obtain ⟨j, hj⟩ := byteTransition_next hv
    exact performTransition_quietFollows (t := v) hstart hj
  | _ => exact nomatch hf

/-- Settles O25: `QuietFollows` holds when a cycle begins and each part of the cycle keeps it. -/
theorem quietFollowsTheEvents : Obligations.QuietFollowsTheEvents := by
  intro i s t hf h
  by_cases hr : i = .cycReset
  · subst hr
    cases h
    simp
  · have hq := cycle_quietFollows hf h hr
    unfold QuietFollows at hq
    refine ⟨fun he => ?_, fun e he => ?_, fun h => absurd h hr, fun _ he => ?_⟩ <;> simpa only [he] using hq

/-! ### What a byte does in a state of R27 -/

/-- The transitions of a byte as a relation (R112 to R124; the two of `SEEK` in one): under the condition that selects
it, the state each leads to. -/
inductive ByteStep (b : Byte) (s : State) : State → Prop
  | seek (hp : s.phase = .seek) : ByteStep b s (reexamine b s)
  | hdrCode (hp : s.phase = .hdr) (hi : s.idx = 0) : ByteStep b s (doHdrCode b s)
  | hdrLenBad (hp : s.phase = .hdr) (hi : s.idx = 1) (hb : s.cfg.maxPayload < b.toNat) :
    ByteStep b s (doHdrLenBad b s)
  | hdrLenOk (hp : s.phase = .hdr) (hi : s.idx = 1) (hb : b.toNat ≤ s.cfg.maxPayload) :
    ByteStep b s (doHdrLenOk b s)
  | payByte (hp : s.phase = .pay) (hi : s.idx.toNat + 1 < s.len.toNat) (hl : s.len.toNat ≤ s.cfg.maxPayload) :
    ByteStep b s { s with buf := s.buf.write s.idx.toNat b, sum := addByte s.sum b, idx := s.idx + 1 }
  | payLast (hp : s.phase = .pay) (hi : s.idx.toNat + 1 = s.len.toNat) (hl : s.len.toNat ≤ s.cfg.maxPayload) :
    ByteStep b s { s with buf := s.buf.write s.idx.toNat b, sum := addByte s.sum b, phase := .cke, idx := 0 }
  | ckHi (hp : s.phase = .cke) (hi : s.idx = 0) : ByteStep b s (doCkHi b s)
  | ckLo (hp : s.phase = .cke) (hi : s.idx = 1) : ByteStep b s (doCkLo b s)
  | endOk (hp : s.phase = .cke) (hi : s.idx = 2) (hb : b = Config.endMarker) (hg : sumGood s = true)
    (hl : s.len.toNat ≤ s.cfg.maxPayload) :
    ByteStep b s { s with
      foValid := true, foCode := s.code, foLen := s.len
      foPayload := fillFrom (bufRead s) s.len.toNat s.foPayload
      event := .frame, quiet := false, phase := .seek, idx := 0 }
  | endBadsum (hp : s.phase = .cke) (hi : s.idx = 2) (hb : b = Config.endMarker) (hg : sumGood s = false) :
    ByteStep b s (doEndBadsum s)
  | endBadmark (hp : s.phase = .cke) (hi : s.idx = 2) (hb : b ≠ Config.endMarker) :
    ByteStep b s (doEndBadmark b s)

/-- What a byte does is one of these; the timer, which may have elapsed in mid-cycle, has no part in it. -/
theorem byteStep_of_byteTransition {b : Byte} {s t : State} (h : s.srInv ∨ s.phase = .seek)
    (ht : byteTransition b s = .next t) : ByteStep b s t := by
  rcases h with h | hp
  · rcases byteTransition_cases s b h with ⟨hp, e⟩ | ⟨hp, hi, e⟩ | ⟨hp, hi, hb, e⟩ | ⟨hp, hi, hb, e⟩ |
      ⟨hp, hi, hl, e⟩ | ⟨hp, hi, hl, e⟩ | ⟨hp, hi, e⟩ | ⟨hp, hi, e⟩ | ⟨hp, hi, hb, hg, hl, e⟩ | ⟨hp, hi, hb, hg, e⟩ |
      ⟨hp, hi, hb, e⟩ <;> cases ht.symm.trans e
    · exact .seek hp
    · exact .hdrCode hp hi
    · exact .hdrLenBad hp hi hb
    · exact .hdrLenOk hp hi hb
    · exact .payByte hp hi hl
    · exact .payLast hp hi hl
    · exact .ckHi hp hi
    · exact .ckLo hp hi
    · exact .endOk hp hi hb hg hl
    · exact .endBadsum hp hi hb hg
    · exact .endBadmark hp hi hb
  · cases ht.symm.trans (byteTransition_seek s b hp)
    exact .seek hp

/-- Each of them is what the byte does: its condition selects the transition. -/
theorem byteTransition_of_byteStep {b : Byte} {s t : State} (h : ByteStep b s t) : byteTransition b s = .next t := by
  cases h with
  | seek hp => exact byteTransition_seek s b hp
  | hdrCode hp hi => exact byteTransition_of_selected s b _ (select_hdr_code s b hp hi)
  | hdrLenBad hp hi hb =>
    exact byteTransition_of_selected s b _ ((select_hdr_len s b hp hi).trans (by rw [if_pos hb]))
  | hdrLenOk hp hi hb =>
    exact byteTransition_of_selected s b _ ((select_hdr_len s b hp hi).trans (by rw [if_neg (Nat.not_lt.2 hb)]))
  | payByte hp hi hl =>
    rw [byteTransition_of_selected s b _ (select_pay s b hp), if_neg (by omega)]
    exact if_pos (by omega)
  | payLast hp hi hl =>
    rw [byteTransition_of_selected s b _ (select_pay s b hp), if_pos hi]
    exact if_pos (by omega)
  | ckHi hp hi => exact byteTransition_of_selected s b _ (select_ck_hi s b hp hi)
  | ckLo hp hi => exact byteTransition_of_selected s b _ (select_ck_lo s b hp hi)
  | endOk hp hi hb hg hl =>
    rw [byteTransition_of_selected s b _ (select_end s b hp hi), if_pos hb, if_pos hg]
    exact if_pos hl
  | endBadsum hp hi hb hg =>
    rw [byteTransition_of_selected s b _ (select_end s b hp hi), if_pos hb, if_neg (by simp [hg])]
    rfl
  | endBadmark hp hi hb =>
    rw [byteTransition_of_selected s b _ (select_end s b hp hi), if_neg hb]
    rfl

/-! ### What a step does in a state of the invariant -/

/-- What a step can do: a reset cycle in the legal configuration it shows, a cycle without or with a byte, or the answer
of a function. `rest` holds the moves that are left. -/
inductive StepCase (s : State) : State → Prop
  | reset {rest : List HostMove} {p : Config.Params} {t : State} (hl : p.legal = true)
    (h : exec .cycReset { s with moves := rest, cfg := p } = .next t) : StepCase s t
  | noByte (rest : List HostMove) (tick : Bool) :
    StepCase s (endCycle tick (abandonIfElapsed (beginCycle { s with moves := rest })))
  | byte (rest : List HostMove) (tick : Bool) {b : Byte} {v : State}
    (h : ByteStep b (abandonIfElapsed (beginCycle { s with moves := rest })) v) : StepCase s (endCycle tick v)
  | call (rest : List HostMove) (r : FuResult) : StepCase s { s with moves := rest, fuResult := some r }

theorem acceptWf_ok {i j : Instr} (h : acceptWf i = .ok j) : j = i := by
  unfold acceptWf at h
  split at h <;> cases h
  rfl

/-- Every FOP that decodes gives a function (R72). -/
theorem decode_fop_format {fop : BitVec 4} {ops : FuOperands} {i : Instr} (h : decode (.fop fop ops) = .ok i) :
    i.format = .fop := by
  simp only [decode, decodeFop] at h
  split at h
  case h_13 => exact nomatch h
  all_goals rw [acceptWf_ok h]; rfl

/-- What a move gives: a reset in the legal configuration it shows, or another cycle or a function in the held one. -/
theorem fetchMove_cases {m : HostMove} {s u : State} {i : Instr} (h : fetchMove m s = .ok (i, u)) :
    (i = .cycReset ∧ ∃ p, p.legal = true ∧ u = { s with cfg := p }) ∨
    ((i = .cycIdle ∨ i = .cycTick ∨ (∃ tick b, i = .cycByte tick b) ∨ i.format = .fop) ∧ u = s) := by
  cases m with
  | cycle p =>
    cases hl : p.params.legal
    case false => simp [fetchMove, sampleConfig_of_illegal p _ hl] at h
    cases hr : ciwRst p.ciw
    case true =>
      cases (fetchMove_cycle_rst hl hr).symm.trans h
      exact .inl ⟨rfl, p.params, hl, rfl⟩
    by_cases hc : p.params = s.cfg
    case neg => simp [fetchMove, sampleConfig_of_changed p _ hl hr hc] at h
    cases (fetchMove_cycle_held p s hl hc).symm.trans h
    exact .inr ⟨(decodeCiw_of_not_rst hr).imp_right (Or.imp_right .inl), rfl⟩
  | call fop ops =>
    cases hd : decode (.fop fop ops) with
    | error e => simp [fetchMove, hd] at h
    | ok j =>
      cases (fetchMove_call s hd).symm.trans h
      exact .inr ⟨.inr (.inr (.inr (decode_fop_format hd))), rfl⟩

theorem fetch_cases {s u : State} {i : Instr} (h : fetch s = .ok (i, u)) :
    (i = .cycReset ∧ ∃ rest p, p.legal = true ∧ u = { s with moves := rest, cfg := p }) ∨
    ((i = .cycIdle ∨ i = .cycTick ∨ (∃ tick b, i = .cycByte tick b) ∨ i.format = .fop) ∧
      ∃ rest, u = { s with moves := rest }) := by
  cases hm : s.moves with
  | nil =>
    cases (fetch_nil s hm).symm.trans h
    exact .inr ⟨.inl rfl, s.moves, rfl⟩
  | cons m rest =>
    rw [fetch_cons s m rest hm] at h
    rcases fetchMove_cases h with ⟨hi, p, hl, hu⟩ | ⟨hi, hu⟩
    · exact .inl ⟨hi, rest, p, hl, hu⟩
    · exact .inr ⟨hi, rest, hu⟩

theorem stepCase_of_step {s t : State} (hinv : s.Inv) (h : step s = .next t) : StepCase s t := by
  obtain ⟨i, u, hf, hx⟩ := step_next s t h
  rcases fetch_cases hf with ⟨rfl, rest, p, hl, rfl⟩ | ⟨hi, rest, rfl⟩
  · exact .reset hl hx
  · rcases hi with rfl | rfl | ⟨tick, b, rfl⟩ | hfop
    · obtain ⟨-, rfl⟩ := cycleNoByte_inv false _ t hx
      exact .noByte rest false
    · obtain ⟨-, rfl⟩ := cycleNoByte_inv true _ t hx
      exact .noByte rest true
    · obtain ⟨-, v, hv, rfl⟩ := cycleWithByte_inv tick b _ t hx
      exact .byte rest tick (byteStep_of_byteTransition (srInv_afterAbandon _ hinv.1) hv)
    · obtain ⟨r, rfl, -⟩ := exec_fop_next hfop hx
      exact .call rest r

/-! ### The invariant (R27, R36) -/

/-- The invariant in the course of a cycle: an abandonment may have left `SEEK` a timer that the end of the cycle
clears, and `entered` may be set. -/
structure State.MidInv (s : State) : Prop where
  seek : s.phase = .seek → s.idx = 0
  hdr : s.phase = .hdr → s.idx.toNat ≤ 1
  pay : s.phase = .pay → 1 ≤ s.len.toNat ∧ s.len.toNat ≤ s.cfg.maxPayload ∧ s.idx.toNat < s.len.toNat
  cke : s.phase = .cke → s.idx.toNat ≤ 2 ∧ s.len.toNat ≤ s.cfg.maxPayload
  timer : s.timer ≤ s.cfg.timeout
  frameOut : s.foValid = true → s.foLen.toNat ≤ s.cfg.maxPayload
  arrays : s.arraysWf
  legal : s.cfg.legal = true

theorem State.MidInv.maxPayload_le {s : State} (h : s.MidInv) : s.cfg.maxPayload ≤ 255 :=
  ((legal_iff _).1 h.legal).2.2

theorem beginCycle_midInv {s : State} (h : s.Inv) : (beginCycle s).MidInv := by
  obtain ⟨⟨hseek, hhdr, hpay, hcke, htimer, hfo⟩, harr, hl, -⟩ := h
  exact ⟨fun hp => (hseek hp).1, hhdr, hpay, hcke, htimer, hfo, harr, hl⟩

theorem raiseFrameError_midInv {s : State} (e : FrameError) (h : s.MidInv) : (raiseFrameError e s).MidInv :=
  { h with seek := fun _ => rfl, hdr := nofun, pay := nofun, cke := nofun }

theorem abandonIfElapsed_midInv {s : State} (h : s.MidInv) : (abandonIfElapsed s).MidInv := by
  unfold abandonIfElapsed
  split
  · exact raiseFrameError_midInv .timeout h
  · exact h

theorem reexamine_midInv {s : State} (b : Byte) (h : s.MidInv) : (reexamine b s).MidInv := by
  rcases reexamine_cases b s with ⟨-, he⟩ | ⟨-, he⟩ <;> rw [he]
  · exact { h with seek := nofun, hdr := fun _ => by simp, pay := nofun, cke := nofun }
  · exact { h with }

/-- A length byte that opens a payload is not zero (R116). -/
theorem doHdrLenOk_pay {b : Byte} {s : State} (h : (doHdrLenOk b s).phase = .pay) : 1 ≤ b.toNat := by
  have hb : b ≠ 0 := by simpa using h
  bv_omega

theorem doHdrLenOk_phase_ne_hdr (b : Byte) (s : State) : (doHdrLenOk b s).phase ≠ .hdr := by
  rw [doHdrLenOk_phase]
  split <;> nofun

/-- The index of a payload byte that is not the last does not wrap. -/
theorem idx_add_one_toNat {s : State} (h : s.idx.toNat + 1 < s.len.toNat) : (s.idx + 1).toNat = s.idx.toNat + 1 :=
  BitVec.toNat_add_of_lt (by have := s.len.isLt; simp; omega)

theorem byteStep_midInv {b : Byte} {s t : State} (h : s.MidInv) (hs : ByteStep b s t) : t.MidInv := by
  have hmax := h.maxPayload_le
  cases hs with
  | seek hp => exact reexamine_midInv b h
  | hdrCode hp hi => exact { h with seek := by simp [hp], hdr := by simp, pay := by simp [hp], cke := by simp [hp] }
  | hdrLenBad hp hi hb => exact reexamine_midInv b (raiseFrameError_midInv .lengthMismatch h)
  | hdrLenOk hp hi hb =>
    refine { h with seek := by simp, hdr := by simp, pay := fun hpay => ?_, cke := fun _ => ⟨by simp, hb⟩ }
    have hpos : 1 ≤ b.toNat := doHdrLenOk_pay hpay
    exact ⟨hpos, hb, hpos⟩
  | payByte hp hi hl =>
    exact { h with
      seek := by simp [hp], hdr := by simp [hp], cke := by simp [hp]
      pay := fun _ => ⟨Nat.one_le_of_lt hi, hl, (idx_add_one_toNat hi).symm ▸ hi⟩
      arrays := ⟨write_wf _ _ _ h.arrays.1 (by omega), h.arrays.2⟩ }
  | payLast hp hi hl =>
    exact { h with
      seek := nofun, hdr := nofun, pay := nofun, cke := fun _ => ⟨by simp, hl⟩
      arrays := ⟨write_wf _ _ _ h.arrays.1 (by omega), h.arrays.2⟩ }
  | ckHi hp hi =>
    exact { h with
      seek := by simp [hp], hdr := by simp [hp], pay := by simp [hp], cke := fun _ => ⟨by simp, (h.cke hp).2⟩ }
  | ckLo hp hi =>
    exact { h with
      seek := by simp [hp], hdr := by simp [hp], pay := by simp [hp], cke := fun _ => ⟨by simp, (h.cke hp).2⟩ }
  | endOk hp hi hb hg hl =>
    exact { h with
      seek := fun _ => rfl, hdr := nofun, pay := nofun, cke := nofun, frameOut := fun _ => hl
      arrays := ⟨h.arrays.1, fillFrom_wf _ _ _ h.arrays.2 (by omega)⟩ }
  | endBadsum hp hi hb hg => exact raiseFrameError_midInv .checksumMismatch h
  | endBadmark hp hi hb => exact reexamine_midInv b (raiseFrameError_midInv .badEnd h)

theorem nextTimer_seek (tick : Bool) {s : State} (hp : s.phase = .seek) : nextTimer tick s = 0 := if_pos (.inl hp)

theorem nextTimer_le (tick : Bool) {s : State} (h : s.timer ≤ s.cfg.timeout) :
    nextTimer tick s ≤ s.cfg.timeout := by
  unfold nextTimer
  split
  · omega
  · split <;> omega

theorem endCycle_inv {s : State} (tick : Bool) (h : s.MidInv) : (endCycle tick s).Inv :=
  ⟨⟨fun hp => ⟨h.seek hp, nextTimer_seek tick hp⟩, h.hdr, h.pay, h.cke, nextTimer_le tick h.timer, h.frameOut⟩,
    h.arrays, h.legal, rfl⟩

theorem execCycReset_inv {s t : State} {rest : List HostMove} {p : Config.Params} (harr : s.arraysWf)
    (hl : p.legal = true) (h : exec .cycReset { s with moves := rest, cfg := p } = .next t) : t.Inv := by
  cases h
  exact ⟨⟨fun _ => ⟨rfl, rfl⟩, nofun, nofun, nofun, Nat.zero_le _, nofun⟩, harr, hl, rfl⟩

/-- Settles O56: each part of a cycle keeps `MidInv`, and its end restores the whole invariant. -/
theorem stepKeepsTheInvariant : Obligations.StepKeepsTheInvariant := by
  intro s t hinv hs
  have ⟨_, harr, _⟩ := hinv
  have hmid (rest) : (abandonIfElapsed (beginCycle { s with moves := rest })).MidInv :=
    abandonIfElapsed_midInv (beginCycle_midInv hinv)
  cases stepCase_of_step hinv hs with
  | reset hl h => exact execCycReset_inv harr hl h
  | noByte rest tick => exact endCycle_inv tick (hmid rest)
  | byte rest tick h => exact endCycle_inv tick (byteStep_midInv (hmid rest) h)
  | call rest r => exact hinv

/-! ### The running sum (R20, R96) -/

/-- A byte of `buf` after a write (R38). -/
theorem bufRead_of_write {s t : State} {n : Nat} {b : Byte} (h : t.buf = s.buf.write n b) (i : Nat) :
    bufRead t i = if i = n then b else bufRead s i := by
  unfold bufRead
  rw [h]
  split
  case isTrue hi => rw [hi, read_write_same, Option.getD_some]
  case isFalse hi => rw [read_write_other _ _ _ _ hi]

/-- The sum of a region grows by the payload byte stored next. -/
theorem regionSum_of_write {s t : State} {n : Nat} {b : Byte} (hc : t.code = s.code) (hl : t.len = s.len)
    (hb : t.buf = s.buf.write n b) : regionSum t (n + 1) = regionSum s n + b.toNat := by
  have hkept : (List.range n).map (bufRead t) = (List.range n).map (bufRead s) :=
    List.map_congr_left fun i hi => by
      rw [bufRead_of_write hb, if_neg (Nat.ne_of_lt (List.mem_range.1 hi))]
  have hnew : bufRead t n = b := by rw [bufRead_of_write hb, if_pos rfl]
  simp [regionSum, hc, hl, List.range_succ, hkept, hnew, Nat.add_assoc]

theorem regionSum_le (s : State) (n : Nat) : regionSum s n ≤ 255 * (n + 2) := by
  have hsum := sumBytes_le ((List.range n).map (bufRead s))
  rw [List.length_map, List.length_range] at hsum
  have := s.code.isLt
  have := s.len.isLt
  unfold regionSum
  omega

theorem addByte_toNat_of_le {sum : U16} (b : Byte) (h : sum.toNat ≤ 65280) :
    (addByte sum b).toNat = sum.toNat + b.toNat := by
  have := b.isLt
  rw [addByte_toNat, Nat.mod_eq_of_lt (by omega)]

theorem reexamine_sumTracks (b : Byte) {s : State} (hp : s.phase = .seek) : (reexamine b s).sumTracks := by
  rcases reexamine_cases b s with ⟨-, he⟩ | ⟨-, he⟩ <;> rw [he]
  · simp [State.sumTracks]
  · exact sumTracks_of_seek hp

/-- The sum after a payload byte, which is no later than byte 254 of the payload. -/
theorem addByte_regionSum {s t : State} {b : Byte} (h : s.sum.toNat = regionSum s s.idx.toNat)
    (hi : s.idx.toNat < s.len.toNat) (hsum : t.sum = addByte s.sum b) (hc : t.code = s.code) (hl : t.len = s.len)
    (hb : t.buf = s.buf.write s.idx.toNat b) : t.sum.toNat = regionSum t (s.idx.toNat + 1) := by
  have hle := regionSum_le s s.idx.toNat
  have := s.len.isLt
  rw [hsum, addByte_toNat_of_le b (by omega), regionSum_of_write hc hl hb, h]

theorem byteStep_sumTracks {b : Byte} {s t : State} (h : s.sumTracks) (hs : ByteStep b s t) : t.sumTracks := by
  obtain ⟨hstart, hcode, hpay, hcke⟩ := h
  cases hs with
  | seek hp => exact reexamine_sumTracks b hp
  | hdrCode hp hi =>
    have hsum : (addByte s.sum b).toNat = b.toNat := by
      rw [hstart hp hi, addByte_toNat_of_le b (by simp)]
      simp
    exact ⟨by simp, fun _ _ => hsum, by simp [hp], by simp [hp]⟩
  | hdrLenBad hp hi hb => exact reexamine_sumTracks b rfl
  | hdrLenOk hp hi hb =>
    have hsum : (addByte s.sum b).toNat = s.code.toNat + b.toNat := by
      have hc := hcode hp hi
      have := s.code.isLt
      rw [addByte_toNat_of_le b (by omega), hc]
    have hphase := doHdrLenOk_phase_ne_hdr b s
    refine ⟨fun hp => absurd hp hphase, fun hp => absurd hp hphase, fun _ => ?_, fun hempty => ?_⟩
    · simpa [regionSum] using hsum
    · have h0 : b = 0 := by simpa using hempty
      simpa [regionSum, h0] using hsum
  | payByte hp hi hl =>
    refine ⟨by simp [hp], by simp [hp], fun _ => ?_, by simp [hp]⟩
    exact (idx_add_one_toNat hi).symm ▸ addByte_regionSum (hpay hp) (by omega) rfl rfl rfl rfl
  | payLast hp hi hl =>
    refine ⟨nofun, nofun, nofun, fun _ => ?_⟩
    exact hi ▸ addByte_regionSum (hpay hp) (by omega) rfl rfl rfl rfl
  | ckHi hp hi => exact ⟨by simp [hp], by simp [hp], by simp [hp], fun _ => hcke hp⟩
  | ckLo hp hi => exact ⟨by simp [hp], by simp [hp], by simp [hp], fun _ => hcke hp⟩
  | endOk => exact sumTracks_of_seek rfl
  | endBadsum => exact sumTracks_of_seek rfl
  | endBadmark => exact reexamine_sumTracks b rfl

theorem abandonIfElapsed_sumTracks {s : State} (h : s.sumTracks) : (abandonIfElapsed s).sumTracks := by
  unfold abandonIfElapsed
  split
  · exact sumTracks_of_seek rfl
  · exact h

/-- Settles O58: the registers of the sum are written by a byte alone, and an abandonment leaves no frame. -/
theorem stepKeepsTheSum : Obligations.StepKeepsTheSum := by
  intro s t hinv htracks hs
  have hmid (rest) : (abandonIfElapsed (beginCycle { s with moves := rest })).sumTracks :=
    abandonIfElapsed_sumTracks htracks
  cases stepCase_of_step hinv hs with
  | reset hl h => cases h; exact sumTracks_of_seek rfl
  | noByte rest tick => exact hmid rest
  | byte rest tick h => exact (byteStep_sumTracks (hmid rest) h :)
  | call rest r => exact htracks

/-! ### The don't-care bytes (R33) -/

/-- The state with other bytes in its two arrays. -/
def State.withArrays (m n : Memory) (s : State) : State := { s with buf := m, foPayload := n }

/-- How many bytes of `buf`, from its first on, belong to the frame being received (R33). -/
def State.definedLen (s : State) : Nat :=
  match s.phase with
  | .seek | .hdr => 0
  | .pay => s.idx.toNat
  | .cke => s.len.toNat

theorem definedBuf_eq (s : State) : definedBuf s = (List.range s.definedLen).map (bufRead s) := by
  unfold definedBuf State.definedLen
  cases s.phase <;> rfl

/-- With the arrays `m` and `n` the state would show the same defined bytes as with its own. -/
structure SameDefined (m n : Memory) (s : State) : Prop where
  buf : ∀ i < s.definedLen, bufRead s i = bufRead (s.withArrays m n) i
  frame : s.foValid = true → ∀ i < s.foLen.toNat, foPayloadRead s i = foPayloadRead (s.withArrays m n) i

theorem definedBuf_eq_iff (m n : Memory) (s : State) :
    definedBuf s = definedBuf (s.withArrays m n) ↔
      ∀ i < s.definedLen, bufRead s i = bufRead (s.withArrays m n) i := by
  have hlen : (s.withArrays m n).definedLen = s.definedLen := rfl
  rw [definedBuf_eq, definedBuf_eq, hlen, List.map_inj_left]
  simp only [List.mem_range]

theorem definedFoPayload_eq_iff (m n : Memory) (s : State) :
    definedFoPayload s = definedFoPayload (s.withArrays m n) ↔
      (s.foValid = true → ∀ i < s.foLen.toNat, foPayloadRead s i = foPayloadRead (s.withArrays m n) i) := by
  cases hv : s.foValid <;> simp [definedFoPayload, State.withArrays, foBytes, hv]

theorem eq_withArrays_of_agree {s s' : State} (h : AgreeOnDefined s s') :
    s' = s.withArrays s'.buf s'.foPayload := by
  obtain ⟨hview, hevent, hentered, hcfg, hres, hmoves⟩ := h
  cases s
  cases s'
  simp_all [finalView, State.withArrays]

/-- Two states agree where they differ in don't-care bytes of the arrays alone. -/
theorem agreeOnDefined_iff (s s' : State) :
    AgreeOnDefined s s' ↔ ∃ m n, s' = s.withArrays m n ∧ SameDefined m n s := by
  constructor
  · intro h
    refine ⟨s'.buf, s'.foPayload, eq_withArrays_of_agree h, ?_, ?_⟩
    · rw [← definedBuf_eq_iff, ← eq_withArrays_of_agree h]
      exact congrArg FinalView.buf h.1
    · rw [← definedFoPayload_eq_iff, ← eq_withArrays_of_agree h]
      exact congrArg FinalView.foPayload h.1
  · rintro ⟨m, n, rfl, h⟩
    have hbuf := (definedBuf_eq_iff m n s).2 h.buf
    have hframe := (definedFoPayload_eq_iff m n s).2 h.frame
    refine ⟨?_, rfl, rfl, rfl, rfl, rfl⟩
    unfold finalView
    rw [hbuf, hframe]
    rfl

/-! #### The outputs -/

theorem foRdData_withArrays {m n : Memory} {s : State} (h : SameDefined m n s) (a : Byte) :
    foRdData s a = foRdData (s.withArrays m n) a := by
  unfold foRdData
  split
  case isTrue hin => exact (h.frame hin.1 _ hin.2).trans (if_pos hin).symm
  case isFalse hout => exact (if_neg hout).symm

theorem foBytes_withArrays {m n : Memory} {s : State} (h : SameDefined m n s) (hv : s.foValid = true) :
    foBytes s = foBytes (s.withArrays m n) :=
  List.map_congr_left fun i hi => h.frame hv i (List.mem_range.1 hi)

theorem foValid_of_viewSlice {s : State} {k : SliceKind} (h : viewSlice s = some k) : s.foValid = true := by
  unfold viewSlice at h
  split at h
  · assumption
  · exact nomatch h

theorem viewBasic_withArrays {m n : Memory} {s : State} (h : SameDefined m n s) :
    viewBasic s = viewBasic (s.withArrays m n) := by
  unfold viewBasic
  split
  case isTrue hk =>
    rw [foBytes_withArrays h (foValid_of_viewSlice hk)]
    exact (if_pos hk).symm
  case isFalse hk => exact (if_neg hk).symm

theorem viewCells_withArrays {m n : Memory} {s : State} (h : SameDefined m n s) (count : Byte) :
    viewCells s count = viewCells (s.withArrays m n) count := by
  unfold viewCells
  split
  case isTrue hk =>
    rw [foBytes_withArrays h (foValid_of_viewSlice hk)]
    exact (if_pos hk).symm
  case isFalse hk => exact (if_neg hk).symm

/-- The outputs read `fo_payload` below `fo_len` only, and only while there is a frame (R28, R29, R104). -/
theorem outputs_withArrays {m n : Memory} {s : State} (h : SameDefined m n s) (ports : CyclePorts) :
    outputs s ports = outputs (s.withArrays m n) ports := by
  unfold outputs
  rw [foRdData_withArrays h, viewBasic_withArrays h, viewCells_withArrays h]
  rfl

/-! #### The parts of a cycle -/

theorem sameDefined_of_seek {m n : Memory} {s : State} (hp : s.phase = .seek)
    (hframe : s.foValid = true → ∀ i < s.foLen.toNat, foPayloadRead s i = foPayloadRead (s.withArrays m n) i) :
    SameDefined m n s :=
  ⟨by simp [State.definedLen, hp], hframe⟩

theorem abandonIfElapsed_withArrays (m n : Memory) (s : State) :
    abandonIfElapsed (s.withArrays m n) = (abandonIfElapsed s).withArrays m n :=
  (apply_ite (State.withArrays m n) (timedOut s = true) (doTimeoutAbandon s) s).symm

theorem abandonIfElapsed_sameDefined {m n : Memory} {s : State} (h : SameDefined m n s) :
    SameDefined m n (abandonIfElapsed s) := by
  unfold abandonIfElapsed
  split
  · exact sameDefined_of_seek rfl h.frame
  · exact h

theorem reexamine_withArrays (m n : Memory) (b : Byte) (s : State) :
    reexamine b (s.withArrays m n) = (reexamine b s).withArrays m n :=
  (apply_ite (State.withArrays m n) (b = Config.startMarker) (doSeekStart s) (doSeekJunk s)).symm

theorem reexamine_sameDefined {m n : Memory} {s : State} (b : Byte) (hp : s.phase = .seek) (h : SameDefined m n s) :
    SameDefined m n (reexamine b s) := by
  rcases reexamine_cases b s with ⟨-, he⟩ | ⟨-, he⟩ <;> rw [he]
  · exact ⟨nofun, h.frame⟩
  · exact sameDefined_of_seek hp h.frame

/-- A byte stored in both arrays at the first undefined index is one more defined byte. -/
theorem bufRead_write_agree {m n : Memory} {s t : State} {b : Byte} {k : Nat} (ht : t.buf = s.buf.write k b)
    (h : ∀ i < k, bufRead s i = bufRead (s.withArrays m n) i) :
    ∀ i < k + 1, bufRead t i = bufRead (t.withArrays (m.write k b) n) i := by
  intro i hi
  rw [bufRead_of_write ht, bufRead_of_write (s := s.withArrays m n) (t := t.withArrays (m.write k b) n) rfl]
  split
  case isTrue => rfl
  case isFalse hne => exact h i (by omega)

/-- No payload byte has been received yet after the length byte. -/
theorem definedLen_doHdrLenOk (b : Byte) (s : State) : (doHdrLenOk b s).definedLen = 0 := by
  unfold State.definedLen
  rw [doHdrLenOk_phase]
  split_ifs with h0
  · exact congrArg BitVec.toNat h0
  · rfl

theorem foPayloadRead_of_fill {s : State} {f : Nat → Byte} {k : Nat} {m : Memory} (h : s.foPayload = fillFrom f k m)
    {i : Nat} (hi : i < k) : foPayloadRead s i = f i := by
  rw [foPayloadRead, h, read_fillFrom_lt f k i m hi, Option.getD_some]

/-- A byte does the same with other don't-care bytes. -/
theorem byteStep_sameDefined {m n : Memory} {b : Byte} {s t : State} (h : SameDefined m n s) (hs : ByteStep b s t) :
    ∃ m' n', ByteStep b (s.withArrays m n) (t.withArrays m' n') ∧ SameDefined m' n' t := by
  cases hs with
  | seek hp => exact ⟨m, n, reexamine_withArrays m n b s ▸ .seek hp, reexamine_sameDefined b hp h⟩
  | hdrCode hp hi => exact ⟨m, n, .hdrCode hp hi, by simp [State.definedLen, hp], h.frame⟩
  | hdrLenBad hp hi hb =>
    refine ⟨m, n, ?_, reexamine_sameDefined b rfl (sameDefined_of_seek rfl h.frame)⟩
    exact reexamine_withArrays m n b (raiseFrameError .lengthMismatch s) ▸ .hdrLenBad hp hi hb
  | hdrLenOk hp hi hb =>
    exact ⟨m, n, .hdrLenOk hp hi hb, by simp [definedLen_doHdrLenOk], h.frame⟩
  | payByte hp hi hl =>
    refine ⟨m.write s.idx.toNat b, n, .payByte hp hi hl, ?_, h.frame⟩
    have hbuf := h.buf
    simp only [State.definedLen, hp, idx_add_one_toNat hi] at hbuf ⊢
    exact bufRead_write_agree rfl hbuf
  | payLast hp hi hl =>
    refine ⟨m.write s.idx.toNat b, n, .payLast hp hi hl, ?_, h.frame⟩
    have hbuf := h.buf
    simp only [State.definedLen, hp, ← hi] at hbuf ⊢
    exact bufRead_write_agree rfl hbuf
  | ckHi hp hi =>
    exact ⟨m, n, .ckHi hp hi, fun i hlt => h.buf i (by simpa [State.definedLen, hp] using hlt), h.frame⟩
  | ckLo hp hi =>
    exact ⟨m, n, .ckLo hp hi, fun i hlt => h.buf i (by simpa [State.definedLen, hp] using hlt), h.frame⟩
  | endOk hp hi hb hg hl =>
    refine ⟨m, fillFrom (bufRead (s.withArrays m n)) s.len.toNat n, .endOk hp hi hb hg hl,
      sameDefined_of_seek rfl fun _ i hlt => ?_⟩
    have hbuf := h.buf i (by simpa [State.definedLen, hp] using hlt)
    exact (foPayloadRead_of_fill rfl hlt).trans (hbuf.trans (foPayloadRead_of_fill rfl hlt).symm)
  | endBadsum hp hi hb hg => exact ⟨m, n, .endBadsum hp hi hb hg, sameDefined_of_seek rfl h.frame⟩
  | endBadmark hp hi hb =>
    refine ⟨m, n, ?_, reexamine_sameDefined b rfl (sameDefined_of_seek rfl h.frame)⟩
    exact reexamine_withArrays m n b (raiseFrameError .badEnd s) ▸ .endBadmark hp hi hb

/-! #### A step -/

theorem sampleConfig_withArrays (m n : Memory) (p : CyclePorts) (s : State) :
    sampleConfig p (s.withArrays m n) = (sampleConfig p s).map (State.withArrays m n) := by
  have hcfg : (s.withArrays m n).cfg = s.cfg := rfl
  unfold sampleConfig
  rw [hcfg]
  split_ifs <;> rfl

theorem fetchMove_withArrays (m n : Memory) (mv : HostMove) (s : State) :
    fetchMove mv (s.withArrays m n) = (fetchMove mv s).map fun p => (p.1, p.2.withArrays m n) := by
  cases mv with
  | cycle p =>
    simp only [fetchMove, sampleConfig_withArrays]
    cases sampleConfig p s <;> rfl
  | call fop ops =>
    simp only [fetchMove]
    cases decode (.fop fop ops) <;> rfl

theorem fetch_withArrays (m n : Memory) {s u : State} {i : Instr} (h : fetch s = .ok (i, u)) :
    fetch (s.withArrays m n) = .ok (i, u.withArrays m n) := by
  cases hm : s.moves with
  | nil =>
    cases (fetch_nil s hm).symm.trans h
    exact fetch_nil _ hm
  | cons mv rest =>
    rw [fetch_cons s mv rest hm] at h
    rw [fetch_cons (s.withArrays m n) mv rest hm]
    exact (fetchMove_withArrays m n mv _).trans (by rw [h])

theorem cycleNoByte_sameDefined {m n : Memory} {tick : Bool} {s t : State} (h : SameDefined m n s)
    (ht : cycleNoByte tick s = .next t) :
    cycleNoByte tick (s.withArrays m n) = .next (t.withArrays m n) ∧ SameDefined m n t := by
  obtain ⟨hl, rfl⟩ := cycleNoByte_inv tick s t ht
  have hb : SameDefined m n (beginCycle s) := ⟨h.buf, h.frame⟩
  have hv := abandonIfElapsed_sameDefined hb
  refine ⟨(cycleNoByte_legal tick (s.withArrays m n) hl).trans ?_, hv.buf, hv.frame⟩
  exact congrArg (fun v => Host.Outcome.next (endCycle tick v)) (abandonIfElapsed_withArrays m n (beginCycle s))

theorem cycByte_sameDefined {m n : Memory} {tick : Bool} {b : Byte} {s t : State} (h : SameDefined m n s)
    (hinv : s.srInv) (ht : exec (.cycByte tick b) s = .next t) :
    ∃ m' n', exec (.cycByte tick b) (s.withArrays m n) = .next (t.withArrays m' n') ∧ SameDefined m' n' t := by
  obtain ⟨hl, v, hv, rfl⟩ := cycleWithByte_inv tick b s t ht
  have hb : SameDefined m n (beginCycle s) := ⟨h.buf, h.frame⟩
  obtain ⟨m', n', hstep, hsame⟩ := byteStep_sameDefined (abandonIfElapsed_sameDefined hb)
    (byteStep_of_byteTransition (srInv_afterAbandon s hinv) hv)
  rw [← abandonIfElapsed_withArrays] at hstep
  exact ⟨m', n', cycleWithByte_next tick b (s.withArrays m n) _ hl (byteTransition_of_byteStep hstep),
    hsame.buf, hsame.frame⟩

theorem step_sameDefined {m n : Memory} {s t : State} (h : SameDefined m n s) (hinv : s.Inv)
    (ht : step s = .next t) :
    ∃ m' n', step (s.withArrays m n) = .next (t.withArrays m' n') ∧ SameDefined m' n' t := by
  obtain ⟨i, u, hf, hx⟩ := step_next s t ht
  rw [step_of_fetch _ _ _ (fetch_withArrays m n hf)]
  rcases fetch_cases hf with ⟨rfl, rest, p, hl, rfl⟩ | ⟨hi, rest, rfl⟩
  · cases hx
    exact ⟨m, n, rfl, sameDefined_of_seek rfl nofun⟩
  · have hu : SameDefined m n { s with moves := rest } := ⟨h.buf, h.frame⟩
    rcases hi with rfl | rfl | ⟨tick, b, rfl⟩ | hfop
    · exact ⟨m, n, cycleNoByte_sameDefined hu hx⟩
    · exact ⟨m, n, cycleNoByte_sameDefined hu hx⟩
    · exact cycByte_sameDefined hu hinv.1 hx
    · obtain ⟨r, rfl, hr⟩ := exec_fop_next hfop hx
      exact ⟨m, n, hr _ rfl, hu.buf, hu.frame⟩

/-- Settles O60: a state that agrees with `s` is `s` with other arrays, and the arrays of the two stay the same on the
defined bytes. -/
theorem dontCareBytesAreNeverRead : Obligations.DontCareBytesAreNeverRead := by
  intro s s' hinv _ hagree
  obtain ⟨m, n, rfl, hsame⟩ := (agreeOnDefined_iff s s').1 hagree
  refine ⟨outputs_withArrays hsame, fun t ht => ?_⟩
  obtain ⟨m', n', ht', hsame'⟩ := step_sameDefined hsame hinv ht
  exact ⟨_, ht', (agreeOnDefined_iff t _).2 ⟨m', n', rfl, hsame'⟩⟩

end Sys2Proof.Machine
end

