-- ==== Sys2Proof/Proofs/Memory.lean ====
section
/-! PROOFS. The family `20_memory.md`: every byte the SR or the host reads from an array has been written (R39). A step
stores payload bytes in order, so the defined bytes of `buf` (R33) are always written ones. -/

namespace Sys2Proof.Machine

/-! ### The written bytes at the front of an array -/

/-- The first `n` bytes of the array have been written. -/
def Memory.writtenTo (m : Memory) (n : Nat) : Prop := ∀ i < n, (m.read? i).isSome = true

theorem Memory.writtenTo_zero (m : Memory) : m.writtenTo 0 := nofun

/-- A byte stored right after the written ones is one more of them. -/
theorem Memory.writtenTo_write {m : Memory} {n : Nat} (h : m.writtenTo n) (b : Byte) :
    (m.write n b).writtenTo (n + 1) := by
  intro i hi
  by_cases he : i = n
  · rw [he, read_write_same, Option.isSome_some]
  · rw [read_write_other m n i b he]
    exact h i (by omega)

theorem Memory.writtenTo_fillFrom (f : Nat → Byte) (n : Nat) (m : Memory) : (fillFrom f n m).writtenTo n := by
  intro i hi
  rw [read_fillFrom_lt f n i m hi, Option.isSome_some]

/-! ### The property in terms of the defined bytes (R33) -/

theorem allWritten_iff (s : State) :
    s.allWritten ↔
      s.buf.writtenTo s.definedLen ∧ (s.foValid = true → s.foPayload.writtenTo s.foLen.toNat) := by
  unfold State.allWritten State.definedLen Memory.writtenTo
  cases s.phase <;> simp

/-- A change that stores no byte and defines no more bytes keeps the property. -/
theorem allWritten_of_kept {s t : State} (h : s.allWritten) (hbuf : t.buf = s.buf)
    (hlen : t.definedLen ≤ s.definedLen) (hframe : t.frameOut = s.frameOut) : t.allWritten := by
  obtain ⟨hwritten, hemitted⟩ := (allWritten_iff s).1 h
  obtain ⟨hvalid, -, hfoLen, hpayload⟩ := by simpa [State.frameOut] using hframe
  rw [allWritten_iff, hbuf, hvalid, hfoLen, hpayload]
  exact ⟨fun i hi => hwritten i (by omega), hemitted⟩

/-- A payload byte stored at the first undefined index keeps the property. -/
theorem allWritten_of_write {s t : State} {n : Nat} {b : Byte} (h : s.allWritten) (hn : s.definedLen = n)
    (hbuf : t.buf = s.buf.write n b) (hlen : t.definedLen = n + 1) (hframe : t.frameOut = s.frameOut) :
    t.allWritten := by
  obtain ⟨hwritten, hemitted⟩ := (allWritten_iff s).1 h
  obtain ⟨hvalid, -, hfoLen, hpayload⟩ := by simpa [State.frameOut] using hframe
  rw [allWritten_iff, hbuf, hlen, hvalid, hfoLen, hpayload]
  exact ⟨Memory.writtenTo_write (hn ▸ hwritten) b, hemitted⟩

/-! ### The parts of a step -/

theorem definedLen_of_seek {s : State} (hp : s.phase = .seek) : s.definedLen = 0 := by
  simp [State.definedLen, hp]

theorem definedLen_of_hdr {s : State} (hp : s.phase = .hdr) : s.definedLen = 0 := by
  simp [State.definedLen, hp]

theorem definedLen_of_pay {s : State} (hp : s.phase = .pay) : s.definedLen = s.idx.toNat := by
  simp [State.definedLen, hp]

theorem definedLen_of_cke {s : State} (hp : s.phase = .cke) : s.definedLen = s.len.toNat := by
  simp [State.definedLen, hp]

theorem definedLen_reexamine (b : Byte) {s : State} (hp : s.phase = .seek) : (reexamine b s).definedLen = 0 := by
  rcases reexamine_cases b s with ⟨-, he⟩ | ⟨-, he⟩ <;> rw [he]
  · exact definedLen_of_hdr rfl
  · exact definedLen_of_seek hp

theorem raiseFrameError_allWritten (e : FrameError) {s : State} (h : s.allWritten) :
    (raiseFrameError e s).allWritten :=
  allWritten_of_kept h rfl (Nat.zero_le _) rfl

theorem abandonIfElapsed_allWritten {s : State} (h : s.allWritten) : (abandonIfElapsed s).allWritten := by
  unfold abandonIfElapsed
  split
  · exact raiseFrameError_allWritten .timeout h
  · exact h

theorem reexamine_allWritten (b : Byte) {s : State} (hp : s.phase = .seek) (h : s.allWritten) :
    (reexamine b s).allWritten :=
  allWritten_of_kept h (reexamine_buf s b) (by simp [definedLen_reexamine b hp]) (reexamine_frameOut b s)

theorem byteStep_allWritten {b : Byte} {s t : State} (h : s.allWritten) (hs : ByteStep b s t) : t.allWritten := by
  cases hs with
  | seek hp => exact reexamine_allWritten b hp h
  | hdrCode hp hi => exact allWritten_of_kept h rfl (by simp [definedLen_of_hdr, hp]) rfl
  | hdrLenBad hp hi hb => exact reexamine_allWritten b rfl (raiseFrameError_allWritten .lengthMismatch h)
  | hdrLenOk hp hi hb => exact allWritten_of_kept h rfl (by simp [definedLen_doHdrLenOk]) rfl
  | payByte hp hi hl =>
    have hnext := idx_add_one_toNat hi
    exact allWritten_of_write h (definedLen_of_pay hp) rfl (Eq.trans (definedLen_of_pay hp) hnext) rfl
  | payLast hp hi hl =>
    exact allWritten_of_write h (definedLen_of_pay hp) rfl ((definedLen_of_cke rfl).trans hi.symm) rfl
  | ckHi hp hi | ckLo hp hi =>
    exact allWritten_of_kept h rfl (by simp [definedLen_of_cke, hp]) rfl
  | endOk hp hi hb hg hl =>
    exact (allWritten_iff _).2 ⟨Memory.writtenTo_zero _, fun _ => Memory.writtenTo_fillFrom _ _ _⟩
  | endBadsum hp hi hb hg => exact raiseFrameError_allWritten .checksumMismatch h
  | endBadmark hp hi hb => exact reexamine_allWritten b rfl (raiseFrameError_allWritten .badEnd h)

/-- A reset leaves no frame, neither in reception nor in `frame_out` (R107). -/
theorem execCycReset_allWritten {s t : State} (h : exec .cycReset s = .next t) : t.allWritten := by
  cases h
  exact ⟨nofun, nofun, nofun⟩

/-- Settles O57: a byte alone writes the arrays or defines more of their bytes; the other parts of a cycle and the
functions define none. -/
theorem stepKeepsAllReadBytesWritten : Obligations.StepKeepsAllReadBytesWritten := by
  intro s t hinv hwritten hs
  have hmid (rest) : (abandonIfElapsed (beginCycle { s with moves := rest })).allWritten :=
    abandonIfElapsed_allWritten hwritten
  cases stepCase_of_step hinv hs with
  | reset hl h => exact execCycReset_allWritten h
  | noByte rest tick => exact hmid rest
  | byte rest tick h => exact (byteStep_allWritten (hmid rest) h :)
  | call rest r => exact hwritten

end Sys2Proof.Machine
end

