-- ==== Sys2Proof/Proofs/Encoding.lean ====
section
/-! PROOFS. The family `30_encoding.md`: decoder and encoder agree (R70 to R72, R111, R112), what a state of R27
selects, the codes of the event outputs (R73, R75), and which byte sequences are frames (R55, R58, R99). -/

namespace Sys2Proof

/-! ### The cycle input word (R70) -/

theorem decodeCiw_of_byte {w : BitVec 11} (hr : ciwRst w = false) (hv : ciwValid w = true) :
    decodeCiw w = .cycByte (ciwTick w) (ciwByte w) := by
  simp [decodeCiw, hr, hv]

theorem decodeCiw_of_tick {w : BitVec 11} (hr : ciwRst w = false) (hv : ciwValid w = false)
    (ht : ciwTick w = true) : decodeCiw w = .cycTick := by
  simp [decodeCiw, hr, hv, ht]

theorem decodeCiw_of_idle {w : BitVec 11} (hr : ciwRst w = false) (hv : ciwValid w = false)
    (ht : ciwTick w = false) : decodeCiw w = .cycIdle := by
  simp [decodeCiw, hr, hv, ht]

/-- Settles O3: one lemma about `decodeCiw` for each of the four selections. -/
theorem cycleWordSelectsItsOperation : Obligations.CycleWordSelectsItsOperation := fun _ =>
  ⟨fun hr => congrArg Except.ok (Machine.decodeCiw_of_rst hr),
    fun hr hv => congrArg Except.ok (decodeCiw_of_byte hr hv),
    fun hr hv ht => congrArg Except.ok (decodeCiw_of_tick hr hv ht),
    fun hr hv ht => congrArg Except.ok (decodeCiw_of_idle hr hv ht)⟩

theorem decodeCiw_packCiw_byte (t : Bool) (b : Byte) : decodeCiw (packCiw false t true b) = .cycByte t b := by
  rw [decodeCiw_of_byte (by simp) (by simp), ciwTick_pack, ciwByte_pack]

/-- Settles O52: ten evaluations of the decoder. -/
theorem wordsOfTheSpecDecode : Obligations.WordsOfTheSpecDecode := by
  unfold Obligations.WordsOfTheSpecDecode
  decide

/-! ### Decode of encode -/

theorem acceptWf_of_wf {i : Instr} (h : i.wf = true) : acceptWf i = .ok i := if_pos h

/-- Settles O53, format by format: the fields of the packed words are read back, each TSW meets its row under the
condition wires the encoder sets, and each function finds its operands on its ports. -/
theorem decodeInvertsEncode : Obligations.DecodeInvertsEncode := by
  intro i hwf
  cases i with
  | cycReset => exact congrArg Except.ok (Machine.decodeCiw_of_rst (ciwRst_pack ..))
  | cycIdle => exact congrArg Except.ok (decodeCiw_of_idle (ciwRst_pack ..) (ciwValid_pack ..) (ciwTick_pack ..))
  | cycTick => exact congrArg Except.ok (decodeCiw_of_tick (ciwRst_pack ..) (ciwValid_pack ..) (ciwTick_pack ..))
  | cycByte t b => exact congrArg Except.ok (decodeCiw_packCiw_byte t b)
  | timeoutAbandon => simp [encode, decode]
  | seekStart => exact decodeTsw_seek_start 0 _
  | seekJunk b => exact decodeTsw_seek_junk 0 b _ (of_decide_eq_true hwf)
  | hdrCode b => exact decodeTsw_hdr_code b _
  | hdrLenBad b =>
    have hb : b.toNat ≠ 0 := fun h => of_decide_eq_true hwf (BitVec.eq_of_toNat_eq h)
    exact (decodeTsw_hdr_len b _).trans (congrArg Except.ok (if_pos (Nat.sub_one_lt hb)))
  | hdrLenOk b =>
    have hb : ¬ 255 < b.toNat := by have := b.isLt; omega
    exact (decodeTsw_hdr_len b _).trans (congrArg Except.ok (if_neg hb))
  | payByte b => exact decodeTsw_pay_byte b _
  | payLast b => exact decodeTsw_pay_last b _
  | ckHi b => exact decodeTsw_ck_hi b _
  | ckLo b => exact decodeTsw_ck_lo b _
  | endOk | endBadsum => exact decodeTsw_end _
  | endBadmark b => exact decodeTsw_end_badmark b _ (of_decide_eq_true hwf)
  | _ => exact acceptWf_of_wf hwf

/-! ### What a selector decodes to -/

/-- The two-bit fields of a TSW take four values. -/
theorem bitVec2_cases : ∀ p : BitVec 2, p = 0 ∨ p = 1 ∨ p = 2 ∨ p = 3 := by decide

/-- The TSWs that cannot occur (R71). -/
theorem decodeTsw_impossible {p q : BitVec 2} (b : Byte) (c : TswCond)
    (h : p = 1 ∧ (q = 2 ∨ q = 3) ∨ p = 2 ∧ (q = 2 ∨ q = 3) ∨ p = 3 ∧ q = 3) :
    decodeTsw (packTsw p q b) c = .error .noTransition := by
  have hp : p ≠ 0 := by rcases h with ⟨rfl, -⟩ | ⟨rfl, -⟩ | ⟨rfl, -⟩ <;> decide
  have hend : packTsw p q b ≠ 0xE77 := by
    intro e
    obtain ⟨rfl, rfl, -⟩ := packTsw_inj (p' := 3) (q' := 2) (b' := 0x77) |>.1 e
    simp at h
  simp only [decodeTsw, tswHits_CFF, tswHits_C00, tswHits_F00, tswHits_FFF, decide_eq_true_eq,
    pack_ne_start p b hp, hend, if_false]
  rcases h with ⟨rfl, rfl | rfl⟩ | ⟨rfl, rfl | rfl⟩ | ⟨rfl, rfl⟩ <;> rfl

/-- The byte in the operand of a decoded transition is one that selects it (R112): earlier rows took the others. -/
theorem decodeTsw_wf {w : BitVec 12} {c : TswCond} {i : Instr} (h : decodeTsw w c = .ok i) : i.wf = true := by
  rw [← packTsw_fields w] at h
  generalize tswPhase w = p, tswSub w = q, tswByte w = b at h
  have hof {j : Instr} (hj : decodeTsw (packTsw p q b) c = .ok j) (hwf : j.wf = true) : i.wf = true := by
    cases h.symm.trans hj
    exact hwf
  have hno (hr : decodeTsw (packTsw p q b) c = .error .noTransition) : i.wf = true := nomatch h.symm.trans hr
  rcases bitVec2_cases p with rfl | rfl | rfl | rfl
  · by_cases hb : b = Config.startMarker
    · exact hof (hb ▸ decodeTsw_seek_start q c) rfl
    · exact hof (decodeTsw_seek_junk q b c hb) (decide_eq_true hb)
  · rcases bitVec2_cases q with rfl | rfl | rfl | rfl
    · exact hof (decodeTsw_hdr_code b c) rfl
    · refine hof (decodeTsw_hdr_len b c) ?_
      split
      case isTrue hb => exact decide_eq_true (by rintro rfl; simp at hb)
      case isFalse => rfl
    all_goals exact hno (decodeTsw_impossible b c (by decide))
  · rcases bitVec2_cases q with rfl | rfl | rfl | rfl
    · exact hof (decodeTsw_pay_byte b c) rfl
    · exact hof (decodeTsw_pay_last b c) rfl
    all_goals exact hno (decodeTsw_impossible b c (by decide))
  · rcases bitVec2_cases q with rfl | rfl | rfl | rfl
    · exact hof (decodeTsw_ck_hi b c) rfl
    · exact hof (decodeTsw_ck_lo b c) rfl
    · by_cases hb : b = Config.endMarker
      · refine hof (hb ▸ decodeTsw_end c) ?_
        split <;> rfl
      · exact hof (decodeTsw_end_badmark b c hb) (decide_eq_true hb)
    · exact hno (decodeTsw_impossible b c (by decide))

theorem acceptWf_wf {i j : Instr} (h : acceptWf i = .ok j) : j.wf = true := by
  unfold acceptWf at h
  split at h <;> cases h
  assumption

theorem decodeFop_wf {w : BitVec 4} {o : FuOperands} {i : Instr} (h : decodeFop w o = .ok i) : i.wf = true := by
  unfold decodeFop at h
  split at h
  case h_13 => exact nomatch h
  all_goals exact acceptWf_wf h

/-- A CIW selects a cycle operation, and every one of those is well-formed (R70). -/
theorem decodeCiw_wf_format (w : BitVec 11) : (decodeCiw w).wf = true ∧ (decodeCiw w).format = .ciw := by
  cases hr : ciwRst w
  case true => simp [Machine.decodeCiw_of_rst hr, Instr.wf, Instr.format]
  case false =>
    rcases Machine.decodeCiw_of_not_rst hr with h | h | ⟨tick, b, h⟩ <;> simp [h, Instr.wf, Instr.format]

/-- Settles O54, format by format. -/
theorem decodedOperationsAreWellFormed : Obligations.DecodedOperationsAreWellFormed := by
  intro sel i h
  cases sel with
  | ciw w => cases h; exact decodeCiw_wf_format w
  | srCondition w elapsed =>
    simp only [decode] at h
    split at h <;> cases h
    exact ⟨rfl, rfl⟩
  | tsw w c => exact ⟨decodeTsw_wf h, decodeTsw_format w c i h⟩
  | fop w o => exact ⟨decodeFop_wf h, Machine.decode_fop_format h⟩

namespace Machine

/-! ### What a state selects -/

/-- Settles O20: the selection lemmas, phase by phase and index by index. -/
theorem everyReachableStateSelectsItsTransition : Obligations.EveryReachableStateSelectsItsTransition := by
  rintro s b ⟨-, hhdr, -, hcke, -⟩
  cases hp : s.phase with
  | seek => exact select_seek s b hp
  | hdr =>
    have hidx : s.idx = 0 ∨ s.idx = 1 := by have := hhdr hp; bv_omega
    rcases hidx with hi | hi
    · simpa [hi] using select_hdr_code s b hp hi
    · simpa [hi] using select_hdr_len s b hp hi
  | pay => exact select_pay s b hp
  | cke =>
    have hidx : s.idx = 0 ∨ s.idx = 1 ∨ s.idx = 2 := by obtain ⟨h, -⟩ := hcke hp; bv_omega
    rcases hidx with hi | hi | hi
    · simpa [hi] using select_ck_hi s b hp hi
    · simpa [hi] using select_ck_lo s b hp hi
    · simpa [hi, sumGood_iff, Config.endMarker] using select_end s b hp hi

/-! ### The event outputs (R73, R75) -/

theorem evKind_evErr_of_none {s : State} (h : s.event = .none) : evKind s = 0 ∧ evErr s = 0 := by
  simp [evKind, evErr, h]

theorem evKind_evErr_of_frame {s : State} (h : s.event = .frame) : evKind s = 1 ∧ evErr s = 0 := by
  simp [evKind, evErr, h]

theorem evKind_evErr_of_err {s : State} {e : FrameError} (h : s.event = .err e) :
    evKind s = 2 ∧ evErr s = e.bits := by
  simp [evKind, evErr, h]

theorem FrameError.bits_ne (e : FrameError) : e.bits ≠ 6 ∧ e.bits ≠ 7 := by
  cases e <;> decide

/-- Code 3 of `ev_kind` and codes 6 and 7 of `ev_err` are never driven (R73, R75). -/
theorem evKind_evErr_undriven (s : State) : evKind s ≠ 3 ∧ evErr s ≠ 6 ∧ evErr s ≠ 7 := by
  cases h : s.event with
  | none =>
    obtain ⟨hk, he⟩ := evKind_evErr_of_none h
    rw [hk, he]; decide
  | frame =>
    obtain ⟨hk, he⟩ := evKind_evErr_of_frame h
    rw [hk, he]; decide
  | err e =>
    obtain ⟨hk, he⟩ := evKind_evErr_of_err h
    rw [hk, he]; exact ⟨by decide, e.bits_ne⟩

/-- Settles O47: the codes of each kind of event, and those that are left. -/
theorem eventOutputsFollowTheCodes : Obligations.EventOutputsFollowTheCodes := fun s =>
  ⟨evKind_evErr_of_none, evKind_evErr_of_frame, evKind_evErr_of_err, evKind_evErr_of_err, evKind_evErr_of_err,
    evKind_evErr_of_err, evKind_evErr_of_err, evKind_evErr_undriven s⟩

/-! ### The byte sequences that `validate` accepts (R99) -/

/-- Three header bytes, a middle part and three trailer bytes: the layout of R55, whatever the markers. -/
def withEnds (b0 c n : Byte) (p : Bytes) (h l e : Byte) : Bytes := [b0, c, n] ++ p ++ [h, l, e]

/-- Every sequence of six bytes or more has the layout. -/
theorem exists_withEnds {bs : Bytes} (hlen : 6 ≤ bs.length) :
    ∃ b0 c n p h l e, bs = withEnds b0 c n p h l e := by
  obtain ⟨b0, c, n, hhead⟩ := List.length_eq_three.1 (show (bs.take 3).length = 3 by simp; omega)
  obtain ⟨h, l, e, htail⟩ :=
    List.length_eq_three.1 (show ((bs.drop 3).drop (bs.length - 6)).length = 3 by simp; omega)
  refine ⟨b0, c, n, (bs.drop 3).take (bs.length - 6), h, l, e, ?_⟩
  rw [withEnds, ← hhead, ← htail, List.append_assoc, List.take_append_drop, List.take_append_drop]

section
variable (b0 c n : Byte) (p : Bytes) (h l e : Byte)

theorem withEnds_length : (withEnds b0 c n p h l e).length = p.length + 6 := by simp [withEnds]

theorem sliceBytes_region : sliceBytes (withEnds b0 c n p h l e) 1 (3 + p.length) = c :: n :: p := by
  simp [sliceBytes, withEnds, Nat.add_comm 3]

theorem sliceBytes_payload : sliceBytes (withEnds b0 c n p h l e) 3 (3 + p.length) = p := by
  simp [sliceBytes, withEnds, Nat.add_comm 3]

/-- The three bytes after the middle part. -/
theorem byteAt_trailer (i : Nat) :
    byteAt (withEnds b0 c n p h l e) (3 + p.length + i) = byteAt [h, l, e] i := by
  simp [byteAt, withEnds, List.getD, Nat.add_comm 3, Nat.add_right_comm _ 3 i, List.getElem?_append_right]

theorem be16_trailer :
    (be16 (withEnds b0 c n p h l e) (3 + p.length)).toNat = h.toNat * 256 + l.toNat := by
  rw [be16_toNat, byteAt_trailer, ← Nat.add_zero (3 + p.length), byteAt_trailer]
  rfl

theorem validateBody_withEnds :
    validateBody (withEnds b0 c n p h l e) c n =
      if p.length ≠ n.toNat then .err .lengthMismatch
      else if e ≠ Config.endMarker then .err .badEnd
      else if (c.toNat + n.toNat + sumBytes p + h.toNat * 256 + l.toNat) % 65536 ≠ 0 then .err .checksumMismatch
      else .ok ⟨c, n, p⟩ := by
  by_cases hlen : p.length = n.toNat
  case neg => simp [validateBody, withEnds_length, hlen]
  have hend : byteAt (withEnds b0 c n p h l e) (p.length + 5) = e := by
    rw [show p.length + 5 = 3 + p.length + 2 by omega, byteAt_trailer]
    rfl
  simp only [validateBody, withEnds_length, ← hlen, sliceBytes_region, sliceBytes_payload, be16_trailer,
    sumBytes_cons]
  simp [hend, Nat.add_assoc]

/-- The checks of R99 on the parts of a sequence. -/
theorem validateFrame_withEnds (m : Nat) :
    validateFrame m (withEnds b0 c n p h l e) =
      if b0 ≠ Config.startMarker then .err .badStart
      else if m < n.toNat then .err .lengthMismatch
      else validateBody (withEnds b0 c n p h l e) c n := by
  have h0 : byteAt (withEnds b0 c n p h l e) 0 = b0 := rfl
  have h1 : byteAt (withEnds b0 c n p h l e) 1 = c := rfl
  have h2 : byteAt (withEnds b0 c n p h l e) 2 = n := rfl
  simp only [validateFrame, parseHeaderOf, withEnds_length, h0, h1, h2]
  by_cases hs : b0 = Config.startMarker <;> by_cases hm : m < n.toNat <;> simp [hs, hm]

end

/-- A chain of checks accepts exactly where no check of it fails (R140). -/
theorem err_check_eq_ok_iff {ε α : Type} (p : Prop) [Decidable p] (e : ε) (r : Result ε α) (v : α) :
    (if p then .err e else r) = .ok v ↔ ¬ p ∧ r = .ok v := by
  by_cases hp : p <;> simp [hp]

/-- A sequence shorter than six bytes is no frame. -/
theorem six_le_length_of_validateFrame {m : Nat} {bs : Bytes} {f : ValidatedFrame}
    (h : validateFrame m bs = .ok f) : 6 ≤ bs.length := by
  simp only [validateFrame, err_check_eq_ok_iff] at h
  obtain ⟨-, hlen, -⟩ := h
  omega

theorem validateFrame_withEnds_ok_iff (m : Nat) (b0 c n : Byte) (p : Bytes) (h l e : Byte) (f : ValidatedFrame) :
    validateFrame m (withEnds b0 c n p h l e) = .ok f ↔
      b0 = Config.startMarker ∧ n.toNat ≤ m ∧ p.length = n.toNat ∧ e = Config.endMarker ∧
      (c.toNat + n.toNat + sumBytes p + h.toNat * 256 + l.toNat) % 65536 = 0 ∧ ⟨c, n, p⟩ = f := by
  rw [validateFrame_withEnds, validateBody_withEnds]
  simp only [err_check_eq_ok_iff, Result.ok.injEq, ne_eq, Decidable.not_not, Nat.not_lt]

/-- Settles O41: a sequence with room for the six bytes around a payload is cut into its parts, and the checks of R99
on those parts are the conditions of R55, R58 and R97. -/
theorem validateAcceptsExactlyTheFrames : Obligations.ValidateAcceptsExactlyTheFrames := by
  intro m bs f
  constructor
  · intro hok
    obtain ⟨b0, c, n, p, h, l, e, rfl⟩ := exists_withEnds (six_le_length_of_validateFrame hok)
    obtain ⟨rfl, hm, hp, rfl, hsum, rfl⟩ := (validateFrame_withEnds_ok_iff ..).1 hok
    exact ⟨hp, hm, h, l, rfl, hsum⟩
  · rintro ⟨hp, hm, h, l, rfl, hsum⟩
    exact (validateFrame_withEnds_ok_iff ..).2 ⟨rfl, hm, hp, rfl, hsum, rfl⟩

end Machine

end Sys2Proof
end

