-- ==== Sys2Proof/Proofs/Bitfield.lean ====
section
/-! PROOFS. The family `40_bitfield_model.md`: the flag codecs bit by bit and in both directions (R81 to R87), the
basic-info record (R89), the balance bits (R91), the cell voltages (R93) and the packed date (R94). -/

namespace Sys2Proof.Machine

/-! ### The flag codecs (R81 to R87) -/

/-- A word decodes to a record exactly when every field of the record is its bits of the word (R81). -/
theorem decodeProtection_eq_iff (raw : U16) (f : ProtectionFlags) :
    decodeProtection raw = f ↔
      raw.getLsbD 0 = f.cellOv ∧ raw.getLsbD 1 = f.cellUv ∧ raw.getLsbD 2 = f.packOv ∧ raw.getLsbD 3 = f.packUv ∧
      raw.getLsbD 4 = f.chgOt ∧ raw.getLsbD 5 = f.chgUt ∧ raw.getLsbD 6 = f.dsgOt ∧ raw.getLsbD 7 = f.dsgUt ∧
      raw.getLsbD 8 = f.chgOc ∧ raw.getLsbD 9 = f.dsgOc ∧ raw.getLsbD 10 = f.shortCircuit ∧
      raw.getLsbD 11 = f.icError ∧ raw.getLsbD 12 = f.fetLock ∧ raw.extractLsb' 13 3 = f.reserved := by
  cases f
  exact Iff.of_eq (ProtectionFlags.mk.injEq ..)

theorem decodeFetStatus_eq_iff (raw : Byte) (f : FetStatus) :
    decodeFetStatus raw = f ↔
      raw.getLsbD 0 = f.chgEn ∧ raw.getLsbD 1 = f.dsgEn ∧ raw.extractLsb' 2 6 = f.reserved := by
  cases f
  exact Iff.of_eq (FetStatus.mk.injEq ..)

theorem encodeProtection_reserved (f : ProtectionFlags) : (encodeProtection f).extractLsb' 13 3 = f.reserved := by
  apply BitVec.eq_of_getLsbD_eq
  intro i hi
  simp only [encodeProtection, BitVec.getLsbD_extractLsb', BitVec.getLsbD_cast, BitVec.getLsbD_append]
  simp [hi]

theorem decodeProtection_encodeProtection (f : ProtectionFlags) : decodeProtection (encodeProtection f) = f := by
  simp only [decodeProtection_eq_iff, encodeProtection_reserved]
  simp only [encodeProtection, BitVec.getLsbD_cast, BitVec.getLsbD_append]
  simp

theorem encodeProtection_decodeProtection (raw : U16) : encodeProtection (decodeProtection raw) = raw := by
  apply BitVec.eq_of_getLsbD_eq
  intro i hi
  simp only [encodeProtection, decodeProtection, BitVec.getLsbD_cast, BitVec.getLsbD_append,
    BitVec.getLsbD_extractLsb', BitVec.getLsbD_ofBool]
  interval_cases i <;> simp

theorem encodeFetStatus_reserved (f : FetStatus) : (encodeFetStatus f).extractLsb' 2 6 = f.reserved := by
  apply BitVec.eq_of_getLsbD_eq
  intro i hi
  simp only [encodeFetStatus, BitVec.getLsbD_extractLsb', BitVec.getLsbD_cast, BitVec.getLsbD_append]
  simp [hi]

theorem decodeFetStatus_encodeFetStatus (f : FetStatus) : decodeFetStatus (encodeFetStatus f) = f := by
  simp only [decodeFetStatus_eq_iff, encodeFetStatus_reserved]
  simp only [encodeFetStatus, BitVec.getLsbD_cast, BitVec.getLsbD_append]
  simp

theorem encodeFetStatus_decodeFetStatus (raw : Byte) : encodeFetStatus (decodeFetStatus raw) = raw := by
  apply BitVec.eq_of_getLsbD_eq
  intro i hi
  simp only [encodeFetStatus, decodeFetStatus, BitVec.getLsbD_cast, BitVec.getLsbD_append,
    BitVec.getLsbD_extractLsb', BitVec.getLsbD_ofBool]
  interval_cases i <;> simp

/-- Settles O30: the decoder's bits are its definition, and the encoder's are read off by decoding its word. -/
theorem protectionFlagsFollowTheBitMap : Obligations.ProtectionFlagsFollowTheBitMap :=
  ⟨fun raw => ⟨_, decodeInvertsEncode (.decodeProt raw) rfl⟩, fun f => ⟨_, decodeInvertsEncode (.encodeProt f) rfl⟩,
    fun _ _ => rfl,
    fun f _ => ⟨encodeProtection f, rfl, (decodeProtection_eq_iff ..).1 (decodeProtection_encodeProtection f)⟩⟩

/-- Settles O31: the FET codec's bits, read off in the same two ways as the protection flags'. -/
theorem fetStatusFollowsTheBitMap : Obligations.FetStatusFollowsTheBitMap :=
  ⟨fun raw => ⟨_, decodeInvertsEncode (.decodeFet raw) rfl⟩, fun f => ⟨_, decodeInvertsEncode (.encodeFet f) rfl⟩,
    fun _ _ => rfl,
    fun f _ => ⟨encodeFetStatus f, rfl, (decodeFetStatus_eq_iff ..).1 (decodeFetStatus_encodeFetStatus f)⟩⟩

/-- Settles O32: one lemma for each codec and direction. -/
theorem flagCodecsRoundTrip : Obligations.FlagCodecsRoundTrip :=
  ⟨encodeProtection_decodeProtection, decodeProtection_encodeProtection,
    encodeFetStatus_decodeFetStatus, decodeFetStatus_encodeFetStatus⟩

/-! ### Multi-byte fields as numbers -/

/-- R11's `be32` by its four bytes. -/
theorem be32_toNat_bytes (p : Bytes) (i : Nat) :
    (be32 p i).toNat = (byteAt p i).toNat * 16777216 + (byteAt p (i + 1)).toNat * 65536 +
      (byteAt p (i + 2)).toNat * 256 + (byteAt p (i + 3)).toNat := by
  rw [be32_toNat, be16_toNat, be16_toNat, Nat.add_assoc i 2 1]
  omega

/-- The sign bit of a `be16` is the top bit of its first byte. -/
theorem sext16_be16 (p : Bytes) (i : Nat) :
    sext16 (be16 p i) = ((byteAt p i).toNat * 256 + (byteAt p (i + 1)).toNat : Nat) -
      (if 128 ≤ (byteAt p i).toNat then 65536 else 0 : Int) := by
  have hlo := (byteAt p (i + 1)).isLt
  have hsign : 2 * (be16 p i).toNat < 2 ^ 16 ↔ ¬ 128 ≤ (byteAt p i).toNat := by
    rw [be16_toNat]
    omega
  rw [sext16_eq_toInt, BitVec.toInt_eq_toNat_cond, if_congr hsign rfl rfl, ite_not, be16_toNat]
  split <;> simp

/-! ### The basic-info record (R89) -/

section
variable {p : Bytes}

theorem decodeBasicInfo_of_short (h : p.length < 23) : decodeBasicInfo p = .err .tooShort := if_pos h

theorem decodeBasicInfo_of_count (hlen : 23 ≤ p.length) (h : 8 < (byteAt p 21).toNat ∨ 4 < (byteAt p 22).toNat) :
    decodeBasicInfo p = .err .invalidCount :=
  (if_neg (Nat.not_lt.2 hlen)).trans (if_pos h)

/-- With both counts in range only the length with the temperatures is left to check. -/
theorem decodeBasicInfo_of_counts_le (hlen : 23 ≤ p.length) (hc : (byteAt p 21).toNat ≤ 8)
    (hn : (byteAt p 22).toNat ≤ 4) :
    decodeBasicInfo p =
      if p.length < 23 + 2 * (byteAt p 22).toNat then .err .tooShort else .ok (basicInfoOf p) :=
  (if_neg (Nat.not_lt.2 hlen)).trans (if_neg (not_or.2 ⟨Nat.not_lt.2 hc, Nat.not_lt.2 hn⟩))

end

/-- The temperatures follow the fixed part, two bytes each (R62). -/
theorem basicInfoOf_temps_toNat (p : Bytes) :
    (basicInfoOf p).temps.map BitVec.toNat = (List.range (byteAt p 22).toNat).map fun k =>
      (byteAt p (23 + 2 * k)).toNat * 256 + (byteAt p (24 + 2 * k)).toNat := by
  rw [basicInfoOf, List.map_map]
  refine List.map_congr_left fun k _ => (be16_toNat p _).trans ?_
  rw [Config.basicFixedLen, Nat.add_right_comm]

theorem exec_decodeBasic (s : State) {p : Bytes} {r : Result DecodeError BasicInfo} (h : decodeBasicInfo p = r) :
    exec (.decodeBasic p) s = .next { s with fuResult := some (.decodeBasic r) } := h ▸ rfl

/-- Settles O33: one lemma for each outcome of the three checks, then the record's fields in the layout of R62. -/
theorem basicInfoIsDecodedFieldByField : Obligations.BasicInfoIsDecodedFieldByField := by
  refine ⟨fun p => ⟨_, decodeInvertsEncode (.decodeBasic p) rfl⟩, fun s p b hb => ?_⟩
  obtain rfl : b = fun i => (byteAt p i).toNat := funext hb
  refine ⟨fun hlen => exec_decodeBasic s (decodeBasicInfo_of_short hlen),
    fun hlen h => exec_decodeBasic s (decodeBasicInfo_of_count hlen h),
    fun hlen hc hn h => exec_decodeBasic s ((decodeBasicInfo_of_counts_le hlen hc hn).trans (if_pos h)),
    fun hc hn hlen => ?_⟩
  have hok : decodeBasicInfo p = .ok (basicInfoOf p) :=
    (decodeBasicInfo_of_counts_le (Nat.le_of_add_right_le hlen) hc hn).trans (if_neg (Nat.not_lt.2 hlen))
  exact ⟨basicInfoOf p, exec_decodeBasic s hok, be16_toNat p 0, sext16_be16 p 2, be16_toNat p 4, be16_toNat p 6,
    be16_toNat p 8, be16_toNat p 10, be32_toNat_bytes p 12, ⟨be16 p 16, be16_toNat p 16, rfl⟩, rfl, rfl,
    ⟨byteAt p 20, rfl, rfl⟩, rfl, rfl, basicInfoOf_temps_toNat p⟩

/-! ### The balance bits (R91) -/

/-- Settles O34: a bit of a word is a binary digit of its number. -/
theorem balancingReadsTheCellBits : Obligations.BalancingReadsTheCellBits := by
  refine fun v i => ⟨fun hi => ?_, fun hi => if_neg (Nat.not_lt.2 hi)⟩
  have hbit : v.getLsbD i = decide (v.toNat / 2 ^ i % 2 = 1) := Nat.testBit_eq_decide_div_mod_eq
  exact (if_pos hi).trans (congrArg Except.ok hbit)

/-! ### The cell voltages (R93) -/

section
variable {p : Bytes} {n : Byte}

theorem decodeCellVoltages_of_count (h : 8 < n.toNat) : decodeCellVoltages p n = .err .invalidCount := if_pos h

theorem decodeCellVoltages_of_count_le (hn : n.toNat ≤ 8) :
    decodeCellVoltages p n =
      if p.length < 2 * n.toNat then .err .tooShort else .ok ((List.range n.toNat).map fun i => be16 p (2 * i)) :=
  if_neg (Nat.not_lt.2 hn)

end

theorem exec_decodeCells (s : State) {p : Bytes} {n : Byte} {r : Result DecodeError (List U16)}
    (h : decodeCellVoltages p n = r) :
    exec (.decodeCells p n) s = .next { s with fuResult := some (.decodeCells r) } := h ▸ rfl

/-- Settles O35: one lemma for each outcome of the two checks; each reading is a `be16`. -/
theorem cellVoltagesAreDecodedInOrder : Obligations.CellVoltagesAreDecodedInOrder := by
  refine ⟨fun p n => ⟨_, decodeInvertsEncode (.decodeCells p n) rfl⟩, fun s p n =>
    ⟨fun hn => exec_decodeCells s (decodeCellVoltages_of_count hn),
      fun hn h => exec_decodeCells s ((decodeCellVoltages_of_count_le hn).trans (if_pos h)),
      fun hn hlen => ⟨_, exec_decodeCells s ((decodeCellVoltages_of_count_le hn).trans (if_neg (Nat.not_lt.2 hlen))),
        ?_⟩⟩⟩
  rw [List.map_map]
  exact List.map_congr_left fun i _ => be16_toNat p (2 * i)

/-! ### The packed date (R94) -/

theorem dateYear_eq (d : U16) : dateYear d = 2000 + d.toNat / 512 := by
  have := d.isLt
  rw [dateYear, BitVec.extractLsb'_toNat, Nat.shiftRight_eq_div_pow, Nat.mod_eq_of_lt (by omega)]

theorem dateMonth_eq (d : U16) : dateMonth d = d.toNat / 32 % 16 := by
  rw [dateMonth, BitVec.extractLsb'_toNat, Nat.shiftRight_eq_div_pow]

theorem dateDay_eq (d : U16) : dateDay d = d.toNat % 32 := by
  rw [dateDay, BitVec.extractLsb'_toNat, Nat.shiftRight_zero]

/-- Settles O36, field by field. -/
theorem dateIsUnpackedByItsFields : Obligations.DateIsUnpackedByItsFields := by
  refine ⟨fun d => ⟨_, decodeInvertsEncode (.unpackDate d) rfl⟩, fun s d => ?_⟩
  rw [← dateYear_eq, ← dateMonth_eq, ← dateDay_eq]
  rfl

end Sys2Proof.Machine
end

