-- ==== Sys2Proof/Proofs/FrameCodec.lean ====
section
/-! PROOFS. The family `41_frame_codec.md`: the checksum (R95, R96), the header and the checks of `validate` (R98, R99),
encoded commands (R101), what one changed byte does to a frame (R102), the slicer (R97, R103) and the views (R104). -/

namespace Sys2Proof.Machine

/-! ### The checksum (R95, R96) -/

theorem checksumOf_toNat (r : Bytes) : (checksumOf r).toNat = (65536 - sumBytes r % 65536) % 65536 := by
  rw [checksumOf, BitVec.toNat_ofNat, Nat.mod_mod]

/-- Settles O37: the model's formula, read as a natural number. -/
theorem checksumIsTheTwosComplementSum : Obligations.ChecksumIsTheTwosComplementSum :=
  ⟨fun r => ⟨_, decodeInvertsEncode (.checksum r) rfl⟩, fun _ r => ⟨checksumOf r, rfl, checksumOf_toNat r⟩⟩

/-- The sum test of R96 tells the checksum from every other value. -/
theorem sum_add_mod_eq_zero_iff (r : Bytes) (k : U16) : (sumBytes r + k.toNat) % 65536 = 0 ↔ k = checksumOf r := by
  have := k.isLt
  rw [← BitVec.toNat_inj, checksumOf_toNat]
  omega

/-- The sum of a frame's region, part by part. -/
theorem sumBytes_region (c n : Byte) (p : Bytes) : sumBytes ([c, n] ++ p) = c.toNat + n.toNat + sumBytes p := by
  simp [Nat.add_assoc]

/-- Settles O38: a region has at most 257 bytes of at most 255 each, and 257 * 255 = 65535. -/
theorem checksumCheckHoldsExactlyForTheChecksum : Obligations.ChecksumCheckHoldsExactlyForTheChecksum := by
  refine ⟨fun c l p hp => ?_, sum_add_mod_eq_zero_iff⟩
  have hle := sumBytes_le ([c, l] ++ p)
  have hlen : ([c, l] ++ p).length = p.length + 2 := rfl
  omega

/-! ### The header (R98) -/

section
variable {m : Nat} {b0 b2 : Byte}

theorem parseHeaderOf_of_ne_start (b1 : Byte) (h : b0 ≠ 0xDD) : parseHeaderOf m b0 b1 b2 = .err .badStart := if_pos h

theorem parseHeaderOf_of_start (b1 : Byte) (h : b0 = 0xDD) :
    parseHeaderOf m b0 b1 b2 = if m < b2.toNat then .err .lengthMismatch else .ok (b1, b2) :=
  if_neg (not_not_intro h)

end

theorem exec_parseHeader_of_eq {s : State} {b0 b1 b2 : Byte} {r : Result FrameError (Byte × Byte)}
    (hl : s.cfg.legal = true) (h : parseHeaderOf s.cfg.maxPayload b0 b1 b2 = r) :
    exec (.parseHeader b0 b1 b2) s = .next { s with fuResult := some (.parseHeader r) } :=
  h ▸ exec_parseHeader_of_legal s b0 b1 b2 hl

/-- Settles O39: the start marker first, then the length limit. -/
theorem headerIsParsedInOrder : Obligations.HeaderIsParsedInOrder :=
  ⟨fun b0 b1 b2 => ⟨_, decodeInvertsEncode (.parseHeader b0 b1 b2) rfl⟩, fun _ _ b1 _ hl =>
    ⟨fun h0 => exec_parseHeader_of_eq hl (parseHeaderOf_of_ne_start b1 h0),
      fun h0 h2 => exec_parseHeader_of_eq hl ((parseHeaderOf_of_start b1 h0).trans (if_pos h2)),
      fun h0 h2 => exec_parseHeader_of_eq hl ((parseHeaderOf_of_start b1 h0).trans (if_neg (Nat.not_lt.2 h2)))⟩⟩

/-! ### The checks of `validate` (R99) -/

/-- A slice of `n` bytes, by its start and its length. -/
theorem sliceBytes_add (s : Bytes) (i n : Nat) : sliceBytes s i (i + n) = (s.drop i).take n := by
  rw [sliceBytes, List.drop_take, Nat.add_sub_cancel_left]

/-- The checks after the header, with the region and the checksum bytes at their places. -/
theorem validateBody_eq (s : Bytes) (c n : Byte) :
    validateBody s c n =
      if s.length ≠ n.toNat + 6 then .err .lengthMismatch
      else if byteAt s (s.length - 1) ≠ Config.endMarker then .err .badEnd
      else if (sumBytes ((s.drop 1).take (n.toNat + 2)) + (byteAt s (n.toNat + 3)).toNat * 256 +
          (byteAt s (n.toNat + 4)).toNat) % 65536 ≠ 0 then .err .checksumMismatch
      else .ok ⟨c, n, (s.drop 3).take n.toNat⟩ := by
  have hreg : sliceBytes s 1 (3 + n.toNat) = (s.drop 1).take (n.toNat + 2) := by
    rw [show 3 + n.toNat = 1 + (n.toNat + 2) by omega, sliceBytes_add]
  rw [validateBody, hreg, sliceBytes_add, be16_toNat, Nat.add_comm 3, Nat.add_assoc (sumBytes _)]

/-- The three length checks of R99 lie next to each other, so they are one check. -/
theorem validateFrame_eq (m : Nat) (s : Bytes) :
    validateFrame m s =
      if s.length = 0 ∨ byteAt s 0 ≠ Config.startMarker then .err .badStart
      else if s.length < 6 ∨ m < (byteAt s 2).toNat ∨ s.length ≠ (byteAt s 2).toNat + 6 then .err .lengthMismatch
      else if byteAt s (s.length - 1) ≠ Config.endMarker then .err .badEnd
      else if (sumBytes ((s.drop 1).take ((byteAt s 2).toNat + 2)) + (byteAt s ((byteAt s 2).toNat + 3)).toNat * 256 +
          (byteAt s ((byteAt s 2).toNat + 4)).toNat) % 65536 ≠ 0 then .err .checksumMismatch
      else .ok ⟨byteAt s 1, byteAt s 2, (s.drop 3).take (byteAt s 2).toNat⟩ := by
  rw [ite_or (s.length < 6), ite_or (m < _)]
  refine ite_congr rfl (fun _ => rfl) fun hstart => ite_congr rfl (fun _ => rfl) fun _ => ?_
  rw [parseHeaderOf_of_start _ (not_not.1 (not_or.1 hstart).2)]
  by_cases hmax : m < (byteAt s 2).toNat
  · rw [if_pos hmax, if_pos hmax]
  · rw [if_neg hmax, if_neg hmax]
    exact validateBody_eq s _ _

/-- Settles O40: byte `i` is `byteAt` and the region's sum is `sumBytes`. -/
theorem validateChecksInOrder : Obligations.ValidateChecksInOrder := by
  refine ⟨fun bs => ⟨_, decodeInvertsEncode (.validate bs) rfl⟩, fun s bs l hl hlen => ?_⟩
  rw [exec_validate_of_legal s bs hl, validateFrame_eq, hlen]
  rfl

/-! ### One changed byte of a frame (R102) -/

theorem sumBytes_set {p : Bytes} {j : Nat} (b : Byte) (hj : j < p.length) :
    sumBytes (p.set j b) + (byteAt p j).toNat = sumBytes p + b.toNat := by
  induction p generalizing j with
  | nil => exact absurd hj (Nat.not_lt_zero j)
  | cons a p ih =>
    cases j with
    | zero => simp only [List.set_cons_zero, sumBytes_cons, byteAt, List.getD_cons_zero]; omega
    | succ j =>
      have := ih (Nat.lt_of_succ_lt_succ hj)
      simp only [List.set_cons_succ, sumBytes_cons, byteAt, List.getD_cons_succ] at this ⊢
      omega

section
variable {b0 c n : Byte} {p : Bytes} {h l e : Byte} {j : Nat}

theorem byteAt_withEnds_payload (hj : j < p.length) : byteAt (withEnds b0 c n p h l e) (j + 3) = byteAt p j := by
  simp [withEnds, byteAt, List.getElem?_append_left hj]

theorem withEnds_set_payload (b : Byte) (hj : j < p.length) :
    (withEnds b0 c n p h l e).set (j + 3) b = withEnds b0 c n (p.set j b) h l e := by
  simp [withEnds, hj]

theorem withEnds_set_trailer (b : Byte) :
    (withEnds b0 c n p h l e).set (3 + p.length + j) b = [b0, c, n] ++ p ++ [h, l, e].set j b := by
  have hlen : ([b0, c, n] ++ p).length = 3 + p.length := by rw [List.length_append, List.length_cons]; rfl
  rw [withEnds, List.set_append_right _ _ (by omega), hlen, Nat.add_sub_cancel_left]

end

section
variable {m : Nat} {c n : Byte} {p : Bytes} {h l e : Byte}

theorem validateFrame_withEnds_of_badStart {b0 : Byte} (hb : b0 ≠ Config.startMarker) :
    validateFrame m (withEnds b0 c n p h l e) = .err .badStart :=
  (validateFrame_withEnds ..).trans (if_pos hb)

theorem validateFrame_withEnds_of_badLength (hb : p.length ≠ n.toNat) :
    validateFrame m (withEnds Config.startMarker c n p h l e) = .err .lengthMismatch := by
  rw [validateFrame_withEnds, if_neg (not_not_intro rfl), validateBody_withEnds, if_pos hb, ite_self]

variable (hm : n.toNat ≤ m) (hp : p.length = n.toNat)
include hm hp

/-- With the header in order the end marker and the sum decide. -/
theorem validateFrame_withEnds_of_header :
    validateFrame m (withEnds Config.startMarker c n p h l e) =
      if e ≠ Config.endMarker then .err .badEnd
      else if (c.toNat + n.toNat + sumBytes p + h.toNat * 256 + l.toNat) % 65536 ≠ 0 then .err .checksumMismatch
      else .ok ⟨c, n, p⟩ := by
  rw [validateFrame_withEnds, if_neg (not_not_intro rfl), if_neg (Nat.not_lt.2 hm), validateBody_withEnds,
    if_neg (not_not_intro hp)]

theorem validateFrame_withEnds_of_badEnd (hb : e ≠ Config.endMarker) :
    validateFrame m (withEnds Config.startMarker c n p h l e) = .err .badEnd :=
  (validateFrame_withEnds_of_header hm hp).trans (if_pos hb)

theorem validateFrame_withEnds_of_badSum
    (hb : (c.toNat + n.toNat + sumBytes p + h.toNat * 256 + l.toNat) % 65536 ≠ 0) :
    validateFrame m (withEnds Config.startMarker c n p h l Config.endMarker) = .err .checksumMismatch :=
  (validateFrame_withEnds_of_header hm hp).trans ((if_neg (not_not_intro rfl)).trans (if_pos hb))

end

/-- A frame with one byte changed in any way: a code, payload or checksum byte moves the sum by less than 65536, so the
sum test fails. -/
theorem validateFrame_set_of_ne {m : Nat} {bs : Bytes} {f : ValidatedFrame} {i : Nat} {b : Byte}
    (hok : validateFrame m bs = .ok f) (hi : i < bs.length) (hb : b ≠ byteAt bs i) :
    validateFrame m (bs.set i b) =
      .err (if i = 0 then .badStart else if i = 2 then .lengthMismatch
            else if i + 1 = bs.length then .badEnd else .checksumMismatch) := by
  obtain ⟨b0, c, n, p, h, l, e, rfl⟩ := exists_withEnds (six_le_length_of_validateFrame hok)
  obtain ⟨rfl, hm, hp, rfl, hsum, -⟩ := (validateFrame_withEnds_ok_iff ..).1 hok
  have hne := BitVec.toNat_ne_iff_ne.2 hb
  rw [withEnds_length] at hi ⊢
  rcases Nat.lt_or_ge i (3 + p.length) with hfront | htrail
  · match i with
    | 0 => exact validateFrame_withEnds_of_badStart hb
    | 1 =>
      rw [if_neg (by omega), if_neg (by omega), if_neg (by omega)]
      change b.toNat ≠ c.toNat at hne
      exact validateFrame_withEnds_of_badSum hm hp (by omega)
    | 2 => exact validateFrame_withEnds_of_badLength fun he => hne (he.symm.trans hp)
    | j + 3 =>
      have hj : j < p.length := by omega
      have hset := sumBytes_set b hj
      rw [byteAt_withEnds_payload hj] at hne
      rw [if_neg (by omega), if_neg (by omega), if_neg (by omega), withEnds_set_payload b hj]
      exact validateFrame_withEnds_of_badSum hm (List.length_set.trans hp) (by omega)
  · obtain ⟨k, rfl⟩ := Nat.exists_eq_add_of_le htrail
    rw [byteAt_trailer] at hb hne
    rw [withEnds_set_trailer, if_neg (by omega), if_neg (by omega)]
    obtain rfl | rfl | rfl : k = 0 ∨ k = 1 ∨ k = 2 := by omega
    · rw [if_neg (by omega)]
      change b.toNat ≠ h.toNat at hne
      exact validateFrame_withEnds_of_badSum hm hp (by omega)
    · rw [if_neg (by omega)]
      change b.toNat ≠ l.toNat at hne
      exact validateFrame_withEnds_of_badSum hm hp (by omega)
    · rw [if_pos (by omega)]
      exact validateFrame_withEnds_of_badEnd hm hp hb

theorem flipBit_ne (b : Byte) {k : Nat} (hk : k < 8) : b ^^^ BitVec.ofNat 8 (2 ^ k) ≠ b := by
  rw [Ne, xor_left_eq_self_iff, ← BitVec.toNat_inj, BitVec.toNat_ofNat]
  have hpow : 2 ^ k < 2 ^ 8 := Nat.pow_lt_pow_right Nat.one_lt_two hk
  rw [Nat.mod_eq_of_lt hpow]
  exact (Nat.two_pow_pos k).ne'

/-- Settles O44: a flipped bit changes its byte. -/
theorem everySingleBitErrorIsDetected : Obligations.EverySingleBitErrorIsDetected :=
  fun _ _ _ _ _ _ hok hi hk => validateFrame_set_of_ne hok hi (flipBit_ne _ hk)

/-! ### Encoded commands (R101, R102) -/

/-- A checksum's two halves. -/
theorem toNat_halves (k : U16) : (k.extractLsb' 8 8).toNat * 256 + (k.extractLsb' 0 8).toNat = k.toNat := by
  have := k.isLt
  rw [BitVec.extractLsb'_toNat, BitVec.extractLsb'_toNat, Nat.shiftRight_eq_div_pow, Nat.shiftRight_zero]
  omega

theorem length_toNat_of_legal {s : State} {p : Bytes} (hl : s.cfg.legal = true) (hp : p.length ≤ s.cfg.maxPayload) :
    (BitVec.ofNat 8 p.length).toNat = p.length := by
  obtain ⟨-, -, hmax⟩ := (legal_iff _).1 hl
  exact Nat.mod_eq_of_lt (Nat.lt_succ_of_le (hp.trans hmax))

theorem exec_encodeCommand_of_lt (s : State) (c : Byte) (p : Bytes) (hl : s.cfg.legal = true)
    (h : s.cfg.maxPayload < p.length) : exec (.encodeCommand c p) s = .refused .payloadTooLong := by
  rw [exec, execEncodeCommand, withLegalConfig_of_legal s _ hl, encodeCommandOf, if_pos h]

/-- Settles O42: the trailer's two checksum bytes are the halves of the region's checksum. -/
theorem encodeCommandBuildsTheFrame : Obligations.EncodeCommandBuildsTheFrame := by
  refine ⟨fun c p => ⟨_, decodeInvertsEncode (.encodeCommand c p) rfl⟩, fun s c p hl =>
    ⟨fun hp => ⟨_, _, _, exec_encodeCommand_of_le s c p hl hp, length_toNat_of_legal hl hp, ?_⟩,
      exec_encodeCommand_of_lt s c p hl⟩⟩
  rw [toNat_halves, checksumOf_toNat, sumBytes_region]
  rfl

/-- A frame built for a payload that fits is accepted. -/
theorem validateFrame_frameOf {m : Nat} (c : Byte) {p : Bytes} (hlen : (BitVec.ofNat 8 p.length).toNat = p.length)
    (hp : p.length ≤ m) : validateFrame m (frameOf c p) = .ok ⟨c, BitVec.ofNat 8 p.length, p⟩ := by
  refine (validateFrame_withEnds_ok_iff ..).2 ⟨rfl, hlen.trans_le hp, hlen.symm, rfl, ?_, rfl⟩
  have hck := (sum_add_mod_eq_zero_iff ([c, BitVec.ofNat 8 p.length] ++ p) _).2 rfl
  rwa [← toNat_halves, sumBytes_region, ← Nat.add_assoc] at hck

/-- Settles O43: the frame built is the one `validate` is asked about. -/
theorem encodedCommandsValidate : Obligations.EncodedCommandsValidate := by
  intro s t c p f hl hp hexec hres
  rw [exec_encodeCommand_of_le s c p hl hp] at hexec
  cases hexec
  cases hres
  rw [exec_validate_of_legal s _ hl, validateFrame_frameOf c (length_toNat_of_legal hl hp) hp]

/-! ### The slicer (R97, R103) -/

theorem sliceKindOf_eq (c : Byte) :
    sliceKindOf c = if c.toNat = 3 then .basic else if c.toNat = 4 then .cells else .other := by
  simp only [sliceKindOf, ← BitVec.toNat_inj]
  rfl

theorem exec_slicePayload_of_not_validated (s : State) (f : ValidatedFrame) (hl : s.cfg.legal = true)
    (h : ¬ (f.payload.length = f.len.toNat ∧ f.len.toNat ≤ s.cfg.maxPayload)) :
    exec (.slicePayload f) s = .refused .operandOutsideDomain := by
  rw [exec, execSlicePayload, withLegalConfig_of_legal s _ hl, slicePayloadOf_eq, if_neg h]

/-- Settles O45: a record either meets both halves of R97 or fails one. -/
theorem sliceKindComesFromTheCode : Obligations.SliceKindComesFromTheCode := by
  refine ⟨fun f hf => ⟨_, decodeInvertsEncode (.slicePayload f) (decide_eq_true hf)⟩, fun s f hl =>
    ⟨fun hf hm => ?_, fun hbad => exec_slicePayload_of_not_validated s f hl fun ⟨hf, hm⟩ =>
      hbad.elim (absurd hf) (Nat.not_lt.2 hm)⟩⟩
  rw [exec_slicePayload_of_validated s f hl ⟨hf, hm⟩, sliceKindOf_eq]

theorem foBytes_length (s : State) : (foBytes s).length = s.foLen.toNat := by
  rw [foBytes, List.length_map, List.length_range]

/-- Settles O46: `validate` accepts nothing but frames (R55), and `fo_len` keeps R27's bound. -/
theorem producedFramesAreValidatedFrames : Obligations.ProducedFramesAreValidatedFrames := by
  constructor
  · intro s t bs f hl hexec hres
    rw [exec_validate_of_legal s bs hl] at hexec
    cases hexec
    have hok : validateFrame s.cfg.maxPayload bs = .ok f := by simpa using hres
    obtain ⟨hlen, hmax, -⟩ := (validateAcceptsExactlyTheFrames ..).1 hok
    exact ⟨hlen, hmax, exec_slicePayload_of_validated _ f hl ⟨hlen, hmax⟩⟩
  · rintro s ⟨⟨-, -, -, -, -, hfo⟩, -, hl, -⟩ hv
    exact ⟨foBytes_length s, hfo hv, exec_slicePayload_of_validated s (foFrame s) hl ⟨foBytes_length s, hfo hv⟩⟩

/-! ### The views (R104) -/

theorem viewSlice_of_invalid {s : State} (hv : s.foValid = false) : viewSlice s = none := by
  rw [viewSlice, hv]; rfl

theorem viewSlice_of_valid {s : State} {k : SliceKind} (hv : s.foValid = true) (hk : sliceKindOf s.foCode = k) :
    viewSlice s = some k :=
  hk ▸ if_pos hv

theorem sliceKindOf_other {c : Byte} (h3 : c ≠ 0x03) (h4 : c ≠ 0x04) : sliceKindOf c = .other :=
  (if_neg h3).trans (if_neg h4)

/-- The views of each kind of frame, and of none. -/
theorem views_eq (s : State) (n : Byte) :
    (viewKind s, viewBasic s, viewCells s n) =
      match viewSlice s with
      | none => (0, none, none)
      | some .basic => (1, some (decodeBasicInfo (foBytes s)), none)
      | some .cells => (2, none, some (decodeCellVoltages (foBytes s) n))
      | some .other => (3, none, none) := by
  rw [viewKind, viewBasic, viewCells]
  rcases viewSlice s with _ | _ | _ | _ <;> rfl

theorem foBytes_getElem? {s : State} {i : Nat} {v : Byte} (hi : i < s.foLen.toNat) (hr : s.foPayload.read? i = some v) :
    (foBytes s)[i]? = some v := by
  simp [foBytes, hi, foPayloadRead, hr]

/-- Settles O49: the kind of the frame decides the views, and the code the kind. -/
theorem viewsDecodeFrameOut : Obligations.ViewsDecodeFrameOut := by
  refine fun s n => ⟨fun hv => ?_, fun hv hc => ?_, fun hv hc => ?_, fun hv h3 h4 => ?_, foBytes_length s,
    fun _ _ => foBytes_getElem?⟩
  · simpa [viewSlice_of_invalid hv] using views_eq s n
  · simpa [viewSlice_of_valid (k := .basic) hv (hc ▸ rfl)] using views_eq s n
  · simpa [viewSlice_of_valid (k := .cells) hv (hc ▸ rfl)] using views_eq s n
  · simpa [viewSlice_of_valid hv (sliceKindOf_other h3 h4)] using views_eq s n

end Sys2Proof.Machine
end

