-- ==== Sys2Proof/Proofs/StreamReassembler.lean ====
section
/-! PROOFS. The family `42_stream_reassembler.md`: the byte transitions one by one (R111 to R124), the four kinds of
cycle and the timer (R106 to R110, R125, R130), and three laws of whole runs: idle cycles are neutral (R129), the SR
agrees with `validate` (R127) and the deadline decides a frame (R128). The last two rest on `State.received`, the bytes
of the frame under way as the registers hold them. -/

namespace Sys2Proof

/-! ### Words that match a row under its mask (R70, R71) -/

/-- A bit that the mask shows is the one of the pattern. -/
theorem getLsbD_of_and {n i : Nat} {w mask pattern : BitVec n} (h : w &&& mask = pattern)
    (hi : mask.getLsbD i = true) : w.getLsbD i = pattern.getLsbD i := by
  rw [← h, BitVec.getLsbD_and, hi, Bool.and_true]

/-- A TSW that matches a row of mask 0xF00 is that row's phase and sub before its own byte. -/
theorem eq_packTsw_of_and_F00 {w m : BitVec 12} {p q : BitVec 2} (h : w &&& 0xF00 = m) (hm : m = packTsw p q 0) :
    w = packTsw p q (tswByte w) := by
  rw [← packTsw_fields w, hm] at h
  obtain ⟨hp, hq⟩ := fields_of_and_F00 h
  rw [← hp, ← hq, packTsw_fields]

/-- So it decodes to what that phase and sub select with its byte. -/
theorem decodeTsw_of_and_F00 {w m : BitVec 12} {p q : BitVec 2} {c : TswCond} {i : Instr} (h : w &&& 0xF00 = m)
    (hm : m = packTsw p q 0) (hd : decodeTsw (packTsw p q (tswByte w)) c = .ok i) : decode (.tsw w c) = .ok i := by
  rw [decode, eq_packTsw_of_and_F00 h hm, hd]

theorem decodeTsw_of_start_row {w : BitVec 12} (c : TswCond) (h : w &&& 0xCFF = 0x0DD) :
    decodeTsw w c = .ok .seekStart :=
  if_pos (beq_iff_eq.2 h)

theorem decodeTsw_of_junk_row {w : BitVec 12} (c : TswCond) (h : w &&& 0xC00 = 0x000) (hs : w &&& 0xCFF ≠ 0x0DD) :
    decodeTsw w c = .ok (.seekJunk (tswByte w)) :=
  (if_neg (mt beq_iff_eq.1 hs)).trans (if_pos (beq_iff_eq.2 h))

namespace Machine

/-! ### The byte transitions, each in a state that selects it (R111 to R124) -/

/-- Settles O9: no CIW and no TSW decodes to an operation of another format. -/
theorem timeoutAbandonsTheFrame : Obligations.TimeoutAbandonsTheFrame := by
  refine ⟨fun w h => ?_, fun w c h => ?_, fun w hr => ?_, fun s hl hp ht => ?_⟩
  · exact nomatch (decodedOperationsAreWellFormed _ _ h).2
  · exact nomatch (decodedOperationsAreWellFormed _ _ h).2
  · rw [decode, ciwRst, hr]
    rfl
  · rw [exec, execTimeoutAbandon, withLegalConfig_of_legal s _ hl, (timedOut_iff s).2 ⟨hp, ht⟩]
    rfl

/-- Settles O10: the first row of R112. -/
theorem seekStartBeginsAFrame : Obligations.SeekStartBeginsAFrame :=
  ⟨fun _ c h => decodeTsw_of_start_row c h,
    fun s hl hp => exec_of_selected s Config.startMarker _ hl (select_seek s _ hp)⟩

/-- Settles O11: the second row of R112, and the two values of `quiet`. -/
theorem seekJunkReportsOnce : Obligations.SeekJunkReportsOnce := by
  refine ⟨fun _ c h hs => decodeTsw_of_junk_row c h hs, fun s b hl hp hb => ?_⟩
  have hexec : exec (.seekJunk b) s = .next (doSeekJunk s) :=
    exec_of_selected s b _ hl ((select_seek s b hp).trans (congrArg Except.ok (if_neg hb)))
  refine ⟨fun hq => ?_, fun hq => ?_⟩
  · rw [hexec, doSeekJunk, hq]
    rfl
  · rw [hexec, doSeekJunk, hq, if_pos rfl, ← hq]

/-- Settles O12: the third row of R112. -/
theorem hdrCodeTakesEveryByte : Obligations.HdrCodeTakesEveryByte :=
  ⟨fun _ c h => decodeTsw_of_and_F00 h rfl (decodeTsw_hdr_code _ c),
    fun s b hl hp hi => exec_of_selected s b _ hl (select_hdr_code s b hp hi)⟩

/-- Settles O13: the length row of R112 with a byte within the limit. -/
theorem hdrLenOkOpensThePayload : Obligations.HdrLenOkOpensThePayload :=
  ⟨fun _ c h hb => decodeTsw_of_and_F00 h rfl
      ((decodeTsw_hdr_len _ c).trans (congrArg Except.ok (if_neg (Nat.not_lt.2 hb)))),
    fun s b hl hp hi hb => exec_of_selected s b _ hl
      ((select_hdr_len s b hp hi).trans (congrArg Except.ok (if_neg (Nat.not_lt.2 hb))))⟩

/-- A re-examined byte right after an error (R114): `quiet` is set, so junk raises nothing. -/
theorem reexamine_raiseFrameError (e : FrameError) (b : Byte) (s : State) :
    reexamine b (raiseFrameError e s) =
      if b = 0xDD then { raiseFrameError e s with phase := .hdr, idx := 0, sum := 0, entered := true }
      else raiseFrameError e s := rfl

/-- Settles O14: the length row of R112 with a byte above the limit. -/
theorem hdrLenBadReexaminesItsByte : Obligations.HdrLenBadReexaminesItsByte := by
  refine ⟨fun _ c h hb => decodeTsw_of_and_F00 h rfl ((decodeTsw_hdr_len _ c).trans (congrArg Except.ok (if_pos hb))),
    fun s b hl hp hi hb => ?_⟩
  have hexec : exec (.hdrLenBad b) s = .next (reexamine b (raiseFrameError .lengthMismatch s)) :=
    exec_of_selected s b _ hl ((select_hdr_len s b hp hi).trans (congrArg Except.ok (if_pos hb)))
  rw [hexec, reexamine_raiseFrameError]
  exact ⟨fun hne => by rw [if_neg hne]; rfl, fun he => by rw [if_pos he]; rfl⟩

/-- Settles O15: the new array is the old one with the byte written at `idx`. -/
theorem payloadBytesAreStoredAtIdx : Obligations.PayloadBytesAreStoredAtIdx := by
  refine ⟨fun _ c h => decodeTsw_of_and_F00 h rfl (decodeTsw_pay_byte _ c),
    fun _ c h => decodeTsw_of_and_F00 h rfl (decodeTsw_pay_last _ c), fun s b hl hp hi => ?_⟩
  refine ⟨s.buf.write s.idx.toNat b, read_write_same _ _ _, fun j hj => read_write_other _ _ _ _ hj,
    fun hlt => ?_, fun hlast => ?_⟩
  · exact (exec_of_selected s b (.payByte b) hl ((select_pay s b hp).trans
      (congrArg Except.ok (if_neg (by omega))))).trans
      (if_pos hi)
  · exact (exec_of_selected s b (.payLast b) hl ((select_pay s b hp).trans
      (congrArg Except.ok (if_pos hlast)))).trans (if_pos hi)

/-! #### The checksum bytes (R120, R121) -/

theorem setCkHi_hi (k : U16) (b : Byte) : (setCkHi k b).extractLsb' 8 8 = b := by
  have := b.isLt
  apply BitVec.eq_of_toNat_eq
  rw [BitVec.extractLsb'_toNat, setCkHi_toNat, Nat.shiftRight_eq_div_pow]
  omega

theorem setCkHi_lo (k : U16) (b : Byte) : (setCkHi k b).extractLsb' 0 8 = k.extractLsb' 0 8 := by
  apply BitVec.eq_of_toNat_eq
  rw [BitVec.extractLsb'_toNat, BitVec.extractLsb'_toNat, setCkHi_toNat, Nat.shiftRight_zero, Nat.shiftRight_zero]
  omega

theorem setCkLo_hi (k : U16) (b : Byte) : (setCkLo k b).extractLsb' 8 8 = k.extractLsb' 8 8 := by
  have := b.isLt
  apply BitVec.eq_of_toNat_eq
  rw [BitVec.extractLsb'_toNat, BitVec.extractLsb'_toNat, setCkLo_toNat, Nat.shiftRight_eq_div_pow,
    Nat.shiftRight_eq_div_pow]
  omega

theorem setCkLo_lo (k : U16) (b : Byte) : (setCkLo k b).extractLsb' 0 8 = b := by
  have := b.isLt
  apply BitVec.eq_of_toNat_eq
  rw [BitVec.extractLsb'_toNat, setCkLo_toNat, Nat.shiftRight_zero]
  omega

/-- Settles O16: the two halves of each new checksum register. -/
theorem checksumBytesFillTheRegister : Obligations.ChecksumBytesFillTheRegister :=
  ⟨fun _ c h => decodeTsw_of_and_F00 h rfl (decodeTsw_ck_hi _ c),
    fun _ c h => decodeTsw_of_and_F00 h rfl (decodeTsw_ck_lo _ c), fun s b hl hp =>
    ⟨fun hi => ⟨setCkHi s.ck b, setCkHi_hi _ _, setCkHi_lo _ _, exec_of_selected s b _ hl (select_ck_hi s b hp hi)⟩,
      fun hi => ⟨setCkLo s.ck b, setCkLo_lo _ _, setCkLo_hi _ _, exec_of_selected s b _ hl (select_ck_lo s b hp hi)⟩⟩⟩

/-! #### The end marker (R122 to R124) -/

theorem decode_endMarker (c : TswCond) :
    decode (.tsw 0xE77 c) = .ok (if c.sumGood then .endOk else .endBadsum) := decodeTsw_end c

/-- Settles O17: the copy of R122 is `fillFrom`. -/
theorem endOkEmitsTheFrame : Obligations.EndOkEmitsTheFrame := by
  refine ⟨fun c hc => (decode_endMarker c).trans (congrArg Except.ok (if_pos hc)), fun s hl hp hi hlen hsum => ?_⟩
  have hsel : selectTransition s Config.endMarker = .ok .endOk :=
    (select_end s _ hp hi).trans (by rw [if_pos rfl, if_pos ((sumGood_iff s).2 hsum)])
  exact ⟨fillFrom (bufRead s) s.len.toNat s.foPayload, fun i h => read_fillFrom_lt _ _ i _ h,
    fun i h => read_fillFrom_ge _ _ i _ h, (exec_of_selected s _ .endOk hl hsel).trans (if_pos hlen)⟩

/-- Settles O18: the same word with the other value of the checksum condition. -/
theorem endBadsumReportsChecksumMismatch : Obligations.EndBadsumReportsChecksumMismatch := by
  refine ⟨fun c hc => (decode_endMarker c).trans (by rw [hc]; rfl), fun s hl hp hi hsum => ?_⟩
  exact exec_of_selected s Config.endMarker .endBadsum hl
    ((select_end s _ hp hi).trans (by rw [if_pos rfl, if_neg (mt (sumGood_iff s).1 hsum)]))

/-- Settles O19: the last row of R112, for the words the rows before it leave. -/
theorem endBadmarkReexaminesItsByte : Obligations.EndBadmarkReexaminesItsByte := by
  constructor
  · intro w c h hne
    have hb : tswByte w ≠ Config.endMarker := fun he => hne ((eq_packTsw_of_and_F00 (p := 3) (q := 2) h rfl).trans
      (by rw [he]; rfl))
    exact decodeTsw_of_and_F00 h rfl (decodeTsw_end_badmark _ c hb)
  · intro s b hl hp hi hb
    have hexec : exec (.endBadmark b) s = .next (reexamine b (raiseFrameError .badEnd s)) :=
      exec_of_selected s b _ hl ((select_end s b hp hi).trans (congrArg Except.ok (if_neg hb)))
    rw [hexec, reexamine_raiseFrameError]
    exact ⟨fun hne => by rw [if_neg hne]; rfl, fun he => by rw [if_pos he]; rfl⟩

/-! ### The cycles (R106 to R110) -/

theorem ciw_bits_of_and_700 {w k : BitVec 11} (h : w &&& 0x700 = k) :
    ciwRst w = k.getLsbD 10 ∧ ciwTick w = k.getLsbD 9 ∧ ciwValid w = k.getLsbD 8 :=
  ⟨getLsbD_of_and h rfl, getLsbD_of_and h rfl, getLsbD_of_and h rfl⟩

/-- Settles O1: bit 10 alone selects the operation, and the operation writes the registers alone. -/
theorem resetCycleLeavesResetValues : Obligations.ResetCycleLeavesResetValues :=
  ⟨fun _ h => congrArg Except.ok (decodeCiw_of_rst (getLsbD_of_and (i := 10) h rfl)), fun _ => ⟨false, rfl⟩⟩

/-! #### The parts of the invariant -/

section
variable {s : State} (hinv : s.Inv)
include hinv

theorem State.Inv.srInv : s.srInv := hinv.1

theorem State.Inv.legal : s.cfg.legal = true := hinv.2.2.1

theorem State.Inv.entered : s.entered = false := hinv.2.2.2

theorem State.Inv.timer_of_seek (hp : s.phase = .seek) : s.timer = 0 := (hinv.1.1 hp).2

theorem State.Inv.timeout_pos : 0 < s.cfg.timeout := ((legal_iff _).1 hinv.legal).1

end

/-! #### Cycles without a byte, and the byte of the cycle that abandons -/

/-- Between cycles the wire `entered` is low, so a cycle that does nothing changes only the event and the timer. -/
theorem endCycle_beginCycle (tick : Bool) {s : State} (he : s.entered = false) :
    endCycle tick (beginCycle s) = { s with event := .none, timer := nextTimer tick (beginCycle s) } := by
  simp only [endCycle, beginCycle, he]

theorem timedOut_eq_false_of_seek_or {s : State} (h : s.phase = .seek ∨ s.timer < s.cfg.timeout) :
    timedOut s = false := by
  rw [← Bool.not_eq_true, timedOut_iff]
  rintro ⟨hp, ht⟩
  exact h.elim hp (Nat.not_lt.2 ht)

/-- A cycle without a byte before the timeout has elapsed. -/
theorem cycleNoByte_of_not_elapsed (tick : Bool) {s : State} (hinv : s.Inv) (h : timedOut s = false) :
    cycleNoByte tick s = .next { s with event := .none, timer := nextTimer tick (beginCycle s) } := by
  rw [cycleNoByte_legal tick s hinv.legal, abandonIfElapsed_of_not (beginCycle s) h,
    endCycle_beginCycle tick hinv.entered]

/-- A cycle without a byte once the timeout has elapsed: a tick in it is not counted. -/
theorem cycleNoByte_of_elapsed (tick : Bool) {s : State} (hinv : s.Inv) (h : timedOut s = true) :
    cycleNoByte tick s = .next { s with
      event := .err .timeout, quiet := true, phase := .seek, idx := 0, timer := 0 } := by
  rw [cycleNoByte_legal tick s hinv.legal, abandonIfElapsed_of_elapsed (beginCycle s) h, hinv.entered]
  rfl

theorem nextTimer_of_inFrame (tick : Bool) {s : State} (hp : s.phase ≠ .seek) (he : s.entered = false) :
    nextTimer tick s = if tick = true then min (s.timer + 1) s.cfg.timeout else s.timer :=
  if_neg (by simp [hp, he])

/-- Without a tick the timer stays (R125); in `SEEK` it is 0 already (R27). -/
theorem nextTimer_idle {s : State} (hinv : s.Inv) : nextTimer false (beginCycle s) = s.timer := by
  by_cases hp : s.phase = .seek
  · exact (nextTimer_seek false (s := beginCycle s) hp).trans (hinv.timer_of_seek hp).symm
  · exact nextTimer_of_inFrame false (s := beginCycle s) hp rfl

/-- Settles O4: the timer of an idle cycle stays. -/
theorem idleCycleChangesNothingUnlessElapsed : Obligations.IdleCycleChangesNothingUnlessElapsed := by
  refine ⟨fun w h => ?_, fun s hinv => ⟨fun hno => ?_, fun hyes => ?_⟩⟩
  · obtain ⟨hr, ht, hv⟩ := ciw_bits_of_and_700 h
    exact congrArg Except.ok (decodeCiw_of_idle hr hv ht)
  · rw [← timedOut_iff, Bool.not_eq_true] at hno
    exact (cycleNoByte_of_not_elapsed false hinv hno).trans (by rw [nextTimer_idle hinv])
  · exact cycleNoByte_of_elapsed false hinv ((timedOut_iff s).2 hyes)

/-- Settles O5: the timer of a tick cycle in `SEEK`, in a frame and where the cycle abandons. -/
theorem tickCycleCountsInAFrame : Obligations.TickCycleCountsInAFrame := by
  refine ⟨fun w h => ?_, fun s hinv => ⟨fun hp => ?_, fun hp ht => ?_, fun hp ht => ?_⟩⟩
  · obtain ⟨hr, ht, hv⟩ := ciw_bits_of_and_700 h
    exact congrArg Except.ok (decodeCiw_of_tick hr hv ht)
  · refine (cycleNoByte_of_not_elapsed true hinv (timedOut_seek s hp)).trans ?_
    rw [nextTimer_seek true (s := beginCycle s) hp, ← hinv.timer_of_seek hp]
  · refine (cycleNoByte_of_not_elapsed true hinv (timedOut_eq_false_of_seek_or (.inr ht))).trans ?_
    rw [nextTimer_of_inFrame true (s := beginCycle s) hp rfl, if_pos rfl]
    exact congrArg (fun n => Host.Outcome.next { s with event := .none, timer := n }) (Nat.min_eq_left ht)
  · exact cycleNoByte_of_elapsed true hinv ((timedOut_iff s).2 ⟨hp, ht⟩)

/-- Settles O6: the transition answers in step 4 of the cycle what it answers as an operation of its own. -/
theorem byteCyclePerformsTheSelectedTransition : Obligations.ByteCyclePerformsTheSelectedTransition := by
  intro s u tick b i hl ht hsel hexec
  have hsel' : selectTransition (beginCycle s) b = .ok i := hsel
  refine cycleWithByte_next tick b s u hl ?_
  rw [abandonIfElapsed_of_not _ (timedOut_eq_false_of_seek_or ht : timedOut (beginCycle s) = false),
    byteTransition_of_selected _ b i hsel', ← exec_of_selected (beginCycle s) b i hl hsel']
  exact hexec

/-- Settles O8: the abandonment leaves `quiet` set and `SEEK`, where the byte begins a frame or is silent junk. -/
theorem byteOfTheExpiryCycleIsReadInSeek : Obligations.ByteOfTheExpiryCycleIsReadInSeek := by
  intro s tick b hinv hp ht
  have he := hinv.entered
  rw [cycByte_of_elapsed s tick b hinv.legal ((timedOut_iff s).2 ⟨hp, ht⟩), doTimeoutAbandon, reexamine_raiseFrameError]
  refine ⟨fun hb => ?_, fun hb => ?_⟩
  · rw [if_pos hb, he]
    rfl
  · rw [if_neg hb, he]
    rfl

/-! ### Every cycle completes (R130, R133) -/

/-- In a state of R27 every byte has a transition that answers. -/
theorem exists_byteStep (b : Byte) {s : State} (h : s.srInv ∨ s.phase = .seek) : ∃ t, ByteStep b s t := by
  suffices hnext : ∃ t, byteTransition b s = .next t from
    hnext.imp fun t ht => byteStep_of_byteTransition h ht
  rcases h with h | hp
  · rcases byteTransition_cases s b h with ⟨-, e⟩ | ⟨-, -, e⟩ | ⟨-, -, -, e⟩ | ⟨-, -, -, e⟩ | ⟨-, -, -, e⟩ |
      ⟨-, -, -, e⟩ | ⟨-, -, e⟩ | ⟨-, -, e⟩ | ⟨-, -, -, -, -, e⟩ | ⟨-, -, -, -, e⟩ | ⟨-, -, -, e⟩ <;> exact ⟨_, e⟩
  · exact ⟨_, byteTransition_seek s b hp⟩

/-- What no byte writes: the configuration, the timer and the model's own fields. -/
structure SameContext (s t : State) : Prop where
  cfg : t.cfg = s.cfg
  timer : t.timer = s.timer
  fuResult : t.fuResult = s.fuResult
  moves : t.moves = s.moves

theorem reexamine_sameContext (b : Byte) (s : State) : SameContext s (reexamine b s) := by
  constructor <;> simp

theorem byteStep_sameContext {b : Byte} {s t : State} (h : ByteStep b s t) : SameContext s t := by
  cases h with
  | seek => exact reexamine_sameContext b s
  | hdrLenBad | endBadmark => exact { reexamine_sameContext b (raiseFrameError _ s) with }
  | _ => exact ⟨rfl, rfl, rfl, rfl⟩

theorem abandonIfElapsed_sameContext (s : State) : SameContext s (abandonIfElapsed s) := by
  unfold abandonIfElapsed
  split <;> exact ⟨rfl, rfl, rfl, rfl⟩

theorem SameContext.trans {s t u : State} (h : SameContext s t) (h' : SameContext t u) : SameContext s u :=
  ⟨h'.cfg.trans h.cfg, h'.timer.trans h.timer, h'.fuResult.trans h.fuResult, h'.moves.trans h.moves⟩

/-- Steps 2 and 3 of R106 write none of them either. -/
theorem startCycle_sameContext (s : State) : SameContext s (abandonIfElapsed (beginCycle s)) :=
  SameContext.trans (t := beginCycle s) ⟨rfl, rfl, rfl, rfl⟩ (abandonIfElapsed_sameContext _)

/-- What a cycle without reset does in a state of the invariant (R106). -/
inductive CycleCase (w : BitVec 11) (s : State) : State → Prop
  | noByte (hv : ciwValid w = false) : CycleCase w s (endCycle (ciwTick w) (abandonIfElapsed (beginCycle s)))
  | byte (hv : ciwValid w = true) {v : State} (h : ByteStep (ciwByte w) (abandonIfElapsed (beginCycle s)) v) :
    CycleCase w s (endCycle (ciwTick w) v)

section
variable {w : BitVec 11} {s t : State}

theorem exec_of_cycleCase (hl : s.cfg.legal = true) (hr : ciwRst w = false) (h : CycleCase w s t) :
    exec (decodeCiw w) s = .next t := by
  cases h with
  | noByte hv =>
    cases ht : ciwTick w
    · exact decodeCiw_of_idle hr hv ht ▸ cycleNoByte_legal false s hl
    · exact decodeCiw_of_tick hr hv ht ▸ cycleNoByte_legal true s hl
  | byte hv h =>
    rw [decodeCiw_of_byte hr hv]
    exact cycleWithByte_next _ _ s _ hl (byteTransition_of_byteStep h)

theorem exists_cycleCase (w : BitVec 11) (hinv : s.Inv) : ∃ t, CycleCase w s t := by
  cases hv : ciwValid w
  · exact ⟨_, .noByte hv⟩
  · obtain ⟨v, h⟩ := exists_byteStep (ciwByte w) (srInv_afterAbandon s hinv.srInv)
    exact ⟨_, .byte hv h⟩

theorem cycleCase_of_exec (hinv : s.Inv) (hr : ciwRst w = false) (h : exec (decodeCiw w) s = .next t) :
    CycleCase w s t := by
  obtain ⟨t', ht'⟩ := exists_cycleCase w hinv
  cases h.symm.trans (exec_of_cycleCase hinv.legal hr ht')
  exact ht'

/-- Every cycle without reset completes from the invariant and keeps it. -/
theorem cycleCase_inv (hinv : s.Inv) (h : CycleCase w s t) : t.Inv := by
  have hmid := abandonIfElapsed_midInv (beginCycle_midInv hinv)
  cases h with
  | noByte => exact endCycle_inv _ hmid
  | byte hv h => exact endCycle_inv _ (byteStep_midInv hmid h)

end

/-- Every cycle operation completes from the invariant, a reset too. -/
theorem exec_decodeCiw_next (w : BitVec 11) {s : State} (hinv : s.Inv) : ∃ t, exec (decodeCiw w) s = .next t := by
  cases hr : ciwRst w
  · exact (exists_cycleCase w hinv).imp fun _ => exec_of_cycleCase hinv.legal hr
  · exact decodeCiw_of_rst hr ▸ ⟨_, rfl⟩

/-- Settles O7: some transition answers, and no part of the cycle writes the configuration or the model's own fields. -/
theorem byteCycleAlwaysCompletes : Obligations.ByteCycleAlwaysCompletes := by
  intro s tick b hinv
  obtain ⟨v, hv⟩ := exists_byteStep b (srInv_afterAbandon s hinv.srInv)
  have hsame := (startCycle_sameContext s).trans (byteStep_sameContext hv)
  exact ⟨endCycle tick v, cycleWithByte_next tick b s v hinv.legal (byteTransition_of_byteStep hv),
    hsame.cfg, hsame.fuResult, hsame.moves⟩

theorem exec_fop_ne_fault {i : Instr} (s : State) (hf : i.format = .fop) (r : Fault) : exec i s ≠ .fault r := by
  rcases exec_fop_cases i s hf with ⟨_, h⟩ | ⟨_, h⟩
  · exact (h s rfl).symm ▸ nofun
  · exact h.symm ▸ nofun

/-- Settles O59: whatever `fetch` gives is a cycle, which completes, or a function, which answers or is refused. -/
theorem stepNeverFaults : Obligations.StepNeverFaults := by
  intro s hinv
  refine ⟨fun r hfault => ?_, fun hm => ?_, fun ports rest hm hc => ?_⟩
  · cases hf : fetch s with
    | error e => simp [step, hf] at hfault
    | ok p =>
      obtain ⟨i, u⟩ := p
      rw [step_of_fetch s u i hf] at hfault
      rcases fetch_cases hf with ⟨rfl, -⟩ | ⟨rfl | rfl | ⟨tick, b, rfl⟩ | hfop, rest, rfl⟩
      · exact nomatch hfault
      · exact nomatch hfault.symm.trans (cycleNoByte_legal false _ hinv.legal)
      · exact nomatch hfault.symm.trans (cycleNoByte_legal true _ hinv.legal)
      · obtain ⟨t, ht, -⟩ := byteCycleAlwaysCompletes { s with moves := rest } tick b hinv
        exact nomatch hfault.symm.trans ht
      · exact exec_fop_ne_fault _ hfop r hfault
  · rw [step_of_fetch s s .cycIdle (fetch_nil s hm)]
    exact ⟨_, cycleNoByte_legal false s hinv.legal⟩
  · obtain ⟨-, hheld, -⟩ := stepRunsTheDecodedOperation s rest
    rw [hheld ports hm hinv.legal hc]
    exact exec_decodeCiw_next ports.ciw (s := { s with moves := rest }) hinv

/-! ### The timer (R125) -/

theorem nextTimer_of_sameContext (tick : Bool) {s v : State} (h : SameContext s v) :
    nextTimer tick v = if v.phase = .seek ∨ v.entered = true then 0
      else if tick = true then min (s.timer + 1) s.cfg.timeout else s.timer := by
  rw [nextTimer, h.cfg, h.timer]

theorem abandonIfElapsed_entered (s : State) : (abandonIfElapsed s).entered = s.entered := by
  unfold abandonIfElapsed
  split <;> rfl

theorem cycleNoByte_timer {tick : Bool} {s t : State} (h : cycleNoByte tick s = .next t) :
    t.timer = if t.phase = .seek then 0
      else if tick = true then min (s.timer + 1) s.cfg.timeout else s.timer := by
  obtain ⟨-, rfl⟩ := cycleNoByte_inv tick s t h
  rw [endCycle_timer, nextTimer_of_sameContext tick (startCycle_sameContext s)]
  exact if_congr (by simp [abandonIfElapsed_entered]) rfl rfl

theorem reexamine_entered (b : Byte) {s : State} (hp : s.phase = .seek) :
    ((reexamine b s).phase = .seek ∨ (reexamine b s).entered = true) ↔
      ((reexamine b s).phase = .seek ∨ (reexamine b s).phase = .hdr ∧ (reexamine b s).idx = 0) := by
  rcases reexamine_cases b s with ⟨-, e⟩ | ⟨-, e⟩ <;> simp [e, hp]

/-- The wire `entered` is high exactly where the byte left the SR at the first byte of a header. -/
theorem byteStep_entered {b : Byte} {s t : State} (h : ByteStep b s t) (he : s.entered = false) :
    (t.phase = .seek ∨ t.entered = true) ↔ (t.phase = .seek ∨ t.phase = .hdr ∧ t.idx = 0) := by
  cases h with
  | seek hp => exact reexamine_entered b hp
  | hdrLenBad | endBadmark => exact reexamine_entered b rfl
  | hdrLenOk =>
    exact or_congr_right (iff_of_false (by simp [he]) fun h => doHdrLenOk_phase_ne_hdr b s h.1)
  | hdrCode | payByte | payLast | ckHi | ckLo | endOk | endBadsum => simp_all

/-- Settles O24: the timer rule of the model, with `entered` read off the next state. -/
theorem timerFollowsItsUpdateRule : Obligations.TimerFollowsItsUpdateRule := by
  intro s t hinv
  refine ⟨fun h => cycleNoByte_timer h, fun h => cycleNoByte_timer h, fun tick b h => ?_⟩
  obtain ⟨-, v, hv, rfl⟩ := cycleWithByte_inv tick b s t h
  have hstep := byteStep_of_byteTransition (srInv_afterAbandon s hinv.srInv) hv
  rw [endCycle_timer, nextTimer_of_sameContext tick ((startCycle_sameContext s).trans (byteStep_sameContext hstep))]
  exact if_congr (byteStep_entered hstep (abandonIfElapsed_entered _)) rfl rfl

/-! ### Runs (R162) -/

theorem runWords_cons_iff {n : Nat} {w : BitVec 11} {ws : List (BitVec 11)} {s u : State}
    {evs : List (Nat × Event)} :
    runWords n (w :: ws) s = .next (evs, u) ↔
      ∃ t rest, exec (decodeCiw w) s = .next t ∧ runWords (n + 1) ws t = .next (rest, u) ∧
        evs = observed n t.event ++ rest := by
  rw [runWords]
  cases exec (decodeCiw w) s with
  | next t => rcases h : runWords (n + 1) ws t with ⟨rest, v⟩ | r | r <;> simp [h, eq_comm, and_comm]
  | fault r => simp
  | refused r => simp

theorem runWords_append_iff {ws vs : List (BitVec 11)} {n : Nat} {s u : State} {evs : List (Nat × Event)} :
    runWords n (ws ++ vs) s = .next (evs, u) ↔
      ∃ t es fs, runWords n ws s = .next (es, t) ∧ runWords (n + ws.length) vs t = .next (fs, u) ∧
        evs = es ++ fs := by
  induction ws generalizing n s evs with
  | nil => simp [runWords, eq_comm]
  | cons w ws ih =>
    simp only [List.cons_append, runWords_cons_iff, ih, List.length_cons, Nat.add_right_comm n, ← Nat.add_assoc n]
    constructor
    · rintro ⟨t, rest, ht, ⟨t', es, fs, hes, hfs, rfl⟩, rfl⟩
      exact ⟨t', _, fs, ⟨t, es, ht, hes, rfl⟩, hfs, (List.append_assoc ..).symm⟩
    · rintro ⟨t', _, fs, ⟨t, es, ht, hes, rfl⟩, hfs, rfl⟩
      exact ⟨t, _, ht, ⟨t', es, fs, hes, hfs, rfl⟩, List.append_assoc ..⟩

/-- A run without reset keeps the invariant. -/
theorem runWords_inv {ws : List (BitVec 11)} {n : Nat} {s u : State} {evs : List (Nat × Event)} (hinv : s.Inv)
    (hr : ∀ w ∈ ws, ciwRst w = false) (h : runWords n ws s = .next (evs, u)) : u.Inv := by
  induction ws generalizing n s evs with
  | nil => cases h; exact hinv
  | cons w ws ih =>
    obtain ⟨t, rest, ht, hrest, -⟩ := runWords_cons_iff.1 h
    rw [List.forall_mem_cons] at hr
    exact ih (cycleCase_inv hinv (cycleCase_of_exec hinv hr.1 ht)) hr.2 hrest

/-! ### Idle cycles are neutral (R129) -/

/-- The state without its event output, which every cycle overwrites (step 2 of R106). -/
def State.noEvent (s : State) : State := { s with event := .none }

/-- A cycle does not read the event of the cycle before it. -/
theorem exec_congr_of_noEvent {w : BitVec 11} {s s' : State} (hr : ciwRst w = false) (h : s'.noEvent = s.noEvent) :
    exec (decodeCiw w) s' = exec (decodeCiw w) s := by
  have hclear (x : State) : exec (decodeCiw w) x = exec (decodeCiw w) x.noEvent := by
    rcases decodeCiw_of_not_rst hr with hd | hd | ⟨tick, b, hd⟩ <;> rw [hd] <;> rfl
  rw [hclear, h, ← hclear]

/-- The events of a run in their order, without the numbers of their cycles. -/
def eventsOf (evs : List (Nat × Event)) : List Event := evs.map Prod.snd

theorem eventsOf_append (es fs : List (Nat × Event)) : eventsOf (es ++ fs) = eventsOf es ++ eventsOf fs :=
  List.map_append

theorem eventsOf_observed (n m : Nat) (e : Event) : eventsOf (observed n e) = eventsOf (observed m e) := by
  unfold observed
  split <;> rfl

/-- A run from another event output and another first cycle number goes the same way. -/
theorem runWords_of_noEvent {ws : List (BitVec 11)} {n : Nat} {s s' t : State} {evs : List (Nat × Event)} (m : Nat)
    (hr : ∀ w ∈ ws, ciwRst w = false) (hs : s'.noEvent = s.noEvent) (h : runWords n ws s = .next (evs, t)) :
    ∃ evs' t', runWords m ws s' = .next (evs', t') ∧ eventsOf evs' = eventsOf evs ∧ t'.noEvent = t.noEvent := by
  induction ws generalizing n m s s' evs with
  | nil => cases h; exact ⟨[], s', rfl, rfl, hs⟩
  | cons w ws ih =>
    obtain ⟨u, rest, hu, hrest, rfl⟩ := runWords_cons_iff.1 h
    rw [List.forall_mem_cons] at hr
    obtain ⟨rest', t', hrest', hev, ht⟩ := ih (m + 1) hr.2 rfl hrest
    refine ⟨_, t', runWords_cons_iff.2 ⟨u, rest', (exec_congr_of_noEvent hr.1 hs).trans hu, hrest', rfl⟩, ?_, ht⟩
    rw [eventsOf_append, eventsOf_append, hev, eventsOf_observed]

/-- The state an elapsed frame is abandoned to, between cycles (R108). -/
def State.abandoned (s : State) : State :=
  { s with event := .err .timeout, quiet := true, phase := .seek, idx := 0, timer := 0 }

/-- A byte in the abandoned state and right after abandoning: `quiet` is set, so it raises nothing in either. -/
theorem reexamine_abandoned (tick : Bool) (b : Byte) (s : State) :
    (endCycle tick (reexamine b (doTimeoutAbandon (beginCycle s)))).event = .err .timeout ∧
    (endCycle tick (reexamine b (beginCycle s.abandoned))).event = .none ∧
    (endCycle tick (reexamine b (beginCycle s.abandoned))).noEvent =
      (endCycle tick (reexamine b (doTimeoutAbandon (beginCycle s)))).noEvent := by
  by_cases hb : b = Config.startMarker
  · rw [hb]
    exact ⟨rfl, rfl, rfl⟩
  · rw [reexamine_junk _ b hb, reexamine_junk _ b hb]
    exact ⟨rfl, rfl, rfl⟩

/-- A cycle in the abandoned state does what it does where it abandons itself, but for the event, which has been raised
already. -/
theorem cycleCase_abandoned {w : BitVec 11} {s t : State} (h : timedOut s = true) (ht : CycleCase w s t) :
    t.event = .err .timeout ∧ ∃ t', CycleCase w s.abandoned t' ∧ t'.event = .none ∧ t'.noEvent = t.noEvent := by
  have hstart : abandonIfElapsed (beginCycle s) = doTimeoutAbandon (beginCycle s) :=
    abandonIfElapsed_of_elapsed (beginCycle s) h
  have hstart' : abandonIfElapsed (beginCycle s.abandoned) = beginCycle s.abandoned :=
    abandonIfElapsed_of_not _ (timedOut_seek _ rfl)
  cases ht with
  | noByte hv =>
    have hcase := CycleCase.noByte (s := s.abandoned) hv
    rw [hstart'] at hcase
    rw [hstart]
    exact ⟨rfl, _, hcase, rfl, rfl⟩
  | byte hv hb =>
    rw [hstart] at hb
    cases (byteTransition_of_byteStep hb).symm.trans (byteTransition_seek _ _ rfl)
    obtain ⟨hev, hev', heq⟩ := reexamine_abandoned (ciwTick w) (ciwByte w) s
    exact ⟨hev, _, .byte hv (hstart'.symm ▸ .seek rfl), hev', heq⟩

/-- An idle cycle before another: together they raise the events of the other alone and lead to the same state. -/
theorem exec_after_idle {w : BitVec 11} {s t : State} (hinv : s.Inv) (hr : ciwRst w = false)
    (h : exec (decodeCiw w) s = .next t) :
    ∃ s' t', exec (decodeCiw 0x000) s = .next s' ∧ exec (decodeCiw w) s' = .next t' ∧ t'.noEvent = t.noEvent ∧
      ∀ n m k, eventsOf (observed n s'.event) ++ eventsOf (observed m t'.event) = eventsOf (observed k t.event) := by
  obtain ⟨-, hidle⟩ := idleCycleChangesNothingUnlessElapsed
  obtain ⟨hstay, habandon⟩ := hidle s hinv
  rw [← timedOut_iff] at hstay habandon
  by_cases hto : timedOut s = true
  · obtain ⟨hev, t', hcase, hev', heq⟩ := cycleCase_abandoned hto (cycleCase_of_exec hinv hr h)
    refine ⟨s.abandoned, t', habandon hto, exec_of_cycleCase hinv.legal hr hcase, heq, fun n m k => ?_⟩
    rw [hev, hev']
    rfl
  · have hexec : exec (decodeCiw w) s.noEvent = .next t := (exec_congr_of_noEvent hr (by rfl)).trans h
    exact ⟨s.noEvent, t, hstay hto, hexec, rfl, fun n m k => eventsOf_observed m k t.event⟩

/-- Settles O28: the idle cycle and the cycle after it do what that cycle alone does, and the rest of the run goes the
same way from there. -/
theorem idleCyclesAreNeutral : Obligations.IdleCyclesAreNeutral := by
  intro s t ws vs w evs hinv hr h
  simp only [List.forall_mem_append, List.forall_mem_cons] at hr
  obtain ⟨hws, hw, hvs⟩ := hr
  obtain ⟨u, es, fs, hes, hfs, rfl⟩ := runWords_append_iff.1 h
  obtain ⟨v, gs, hv, hgs, rfl⟩ := runWords_cons_iff.1 hfs
  obtain ⟨u', v', hu', hv', heq, hev⟩ := exec_after_idle (runWords_inv hinv hws hes) hw hv
  obtain ⟨gs', t', hgs', hevs, ht'⟩ := runWords_of_noEvent (0 + ws.length + 1 + 1) hvs heq hgs
  have hrun := runWords_cons_iff.2 ⟨u', _, hu', runWords_cons_iff.2 ⟨v', gs', hv', hgs', rfl⟩, rfl⟩
  refine ⟨_, t', runWords_append_iff.2 ⟨u, es, _, hes, hrun, rfl⟩, ?_, ht'⟩
  change eventsOf _ = eventsOf _
  simp only [eventsOf_append, hevs]
  rw [← List.append_assoc (eventsOf (observed _ _)), hev]

/-! ### The bytes of the frame under way -/

/-- The bytes received of the current frame from its start marker on, as the registers hold them (R16 to R21). -/
def State.received (s : State) : Bytes :=
  match s.phase with
  | .seek => []
  | .hdr => if s.idx = 0 then [Config.startMarker] else [Config.startMarker, s.code]
  | .pay => [Config.startMarker, s.code, s.len] ++ definedBuf s
  | .cke => [Config.startMarker, s.code, s.len] ++ definedBuf s ++
      [s.ck.extractLsb' 8 8, s.ck.extractLsb' 0 8].take s.idx.toNat

section
variable {s : State}

theorem received_of_hdr (hp : s.phase = .hdr) :
    s.received = if s.idx = 0 then [Config.startMarker] else [Config.startMarker, s.code] := by
  simp only [State.received, hp]

theorem received_of_pay (hp : s.phase = .pay) :
    s.received = [Config.startMarker, s.code, s.len] ++ (List.range s.idx.toNat).map (bufRead s) := by
  simp only [State.received, definedBuf, hp]

theorem received_of_cke (hp : s.phase = .cke) :
    s.received = [Config.startMarker, s.code, s.len] ++ (List.range s.len.toNat).map (bufRead s) ++
      [s.ck.extractLsb' 8 8, s.ck.extractLsb' 0 8].take s.idx.toNat := by
  simp only [State.received, definedBuf, hp]

end

theorem bufRead_congr {s t : State} (h : t.buf = s.buf) : bufRead t = bufRead s := by
  funext i
  rw [bufRead, bufRead, h]

/-- The first `n + 1` bytes of `buf` after a write at `n`. -/
theorem map_bufRead_of_write {s t : State} {n : Nat} {b : Byte} (h : t.buf = s.buf.write n b) :
    (List.range (n + 1)).map (bufRead t) = (List.range n).map (bufRead s) ++ [b] := by
  rw [List.range_succ, List.map_append, List.map_singleton, bufRead_of_write h, if_pos rfl]
  congr 1
  exact List.map_congr_left fun i hi => by rw [bufRead_of_write h, if_neg (Nat.ne_of_lt (List.mem_range.1 hi))]

/-- How an outcome of `validate` shows as an event. -/
def Result.event : Result FrameError ValidatedFrame → Event
  | .ok _ => .frame
  | .err e => .err e

/-- A frame that ends with byte `b` after the bytes `q`, for a limit `m` of the payload: at the length byte or at the
end marker, with the event and the frame that `validate` gives for `q ++ [b]` (R127). -/
structure FrameEnd (m : Nat) (q : Bytes) (b : Byte) (t : State) : Prop where
  place : q.length = 2 ∧ m < b.toNat ∨ q.length = (byteAt q 2).toNat + 5 ∧ (byteAt q 2).toNat ≤ m
  event : t.event = (validateFrame m (q ++ [b])).event
  frame : ∀ f, validateFrame m (q ++ [b]) = .ok f → t.foValid = true ∧ foFrame t = f

/-- A length byte above the limit ends the frame (R117). -/
theorem frameEnd_of_badLength {b : Byte} {s : State} (hp : s.phase = .hdr) (hi : s.idx = 1)
    (hb : s.cfg.maxPayload < b.toNat) : FrameEnd s.cfg.maxPayload s.received b (doHdrLenBad b s) := by
  have hq : s.received = [Config.startMarker, s.code] := by simp [received_of_hdr hp, hi]
  have hv : validateFrame s.cfg.maxPayload (s.received ++ [b]) = .err .lengthMismatch := by rw [hq]; rfl
  refine ⟨.inl ⟨by rw [hq]; rfl, hb⟩, ?_, fun f hf => nomatch hv.symm.trans hf⟩
  rw [hv, doHdrLenBad, reexamine_raiseFrameError]
  split <;> rfl

/-- With all but the end marker received, a byte ends the frame as the checks of R99 say. -/
theorem frameEnd_of_last {b : Byte} {s t : State} (hp : s.phase = .cke) (hi : s.idx = 2)
    (hl : s.len.toNat ≤ s.cfg.maxPayload) (hsum : s.sum.toNat = regionSum s s.len.toNat)
    (ht : t.event = if b ≠ Config.endMarker then .err .badEnd
      else if sumGood s = true then .frame else .err .checksumMismatch)
    (hf : t.event = .frame → t.foValid = true ∧
      foFrame t = ⟨s.code, s.len, (List.range s.len.toNat).map (bufRead s)⟩) :
    FrameEnd s.cfg.maxPayload s.received b t := by
  have hlen : ((List.range s.len.toNat).map (bufRead s)).length = s.len.toNat := by simp
  have hq : s.received ++ [b] = withEnds Config.startMarker s.code s.len ((List.range s.len.toNat).map (bufRead s))
      (s.ck.extractLsb' 8 8) (s.ck.extractLsb' 0 8) b := by
    simp [received_of_cke hp, hi, withEnds]
  have hgood : sumGood s = true ↔ (s.code.toNat + s.len.toNat + sumBytes ((List.range s.len.toNat).map (bufRead s)) +
      (s.ck.extractLsb' 8 8).toNat * 256 + (s.ck.extractLsb' 0 8).toNat) % 65536 = 0 := by
    rw [sumGood_iff, hsum, ← toNat_halves s.ck, regionSum, Nat.add_assoc _ (_ * 256)]
  have hv := validateFrame_withEnds_of_header (m := s.cfg.maxPayload) (c := s.code) (h := s.ck.extractLsb' 8 8)
    (l := s.ck.extractLsb' 0 8) (e := b) hl hlen
  rw [← hq, ite_not (_ = 0), if_congr hgood.symm rfl rfl] at hv
  refine ⟨.inr ?_, ?_, ?_⟩
  · simp [received_of_cke hp, hi, byteAt, hl]
  · rw [hv, ht]
    split_ifs <;> rfl
  · intro f hok
    rw [hv] at hok
    split_ifs at hok with hb hg
    cases hok
    exact hf (by rw [ht, if_neg hb, if_pos hg])

/-- A byte that continues the frame: no event, the start marker is not accepted anew, and the byte is received. -/
structure FrameMore (b : Byte) (s t : State) : Prop where
  event : t.event = s.event
  entered : t.entered = s.entered
  phase : t.phase ≠ .seek
  received : t.received = s.received ++ [b]

theorem frameMore_hdrLenOk {b : Byte} {s : State} (hp : s.phase = .hdr) (hi : s.idx = 1) :
    FrameMore b s (doHdrLenOk b s) := by
  have hq : s.received = [Config.startMarker, s.code] := by simp [received_of_hdr hp, hi]
  by_cases hb : b = 0
  · have hcke : (doHdrLenOk b s).phase = .cke := by simp [hb]
    refine ⟨rfl, rfl, hcke ▸ nofun, ?_⟩
    rw [received_of_cke hcke, hq, hb]
    rfl
  · have hpay : (doHdrLenOk b s).phase = .pay := by simpa using hb
    refine ⟨rfl, rfl, hpay ▸ nofun, ?_⟩
    rw [received_of_pay hpay, hq]
    rfl

/-- Within a frame every byte continues the frame or ends it. -/
theorem byteStep_inFrame {b : Byte} {s t : State} (hp : s.phase ≠ .seek) (hinv : s.srInv) (hsum : s.sumTracks)
    (h : ByteStep b s t) : FrameMore b s t ∨ FrameEnd s.cfg.maxPayload s.received b t := by
  obtain ⟨-, -, -, hlen, -⟩ := hinv
  obtain ⟨-, -, -, hsum⟩ := hsum
  cases h with
  | seek hs => exact absurd hs hp
  | hdrCode hs hi =>
    refine .inl ⟨rfl, rfl, hp, ?_⟩
    rw [received_of_hdr (s := doHdrCode b s) hs, received_of_hdr hs, hi]
    rfl
  | hdrLenBad hs hi hb => exact .inr (frameEnd_of_badLength hs hi hb)
  | hdrLenOk hs hi hb => exact .inl (frameMore_hdrLenOk hs hi)
  | payByte hs hi hl =>
    refine .inl ⟨rfl, rfl, hp, ?_⟩
    rw [received_of_pay (by exact hs), received_of_pay hs, idx_add_one_toNat hi, map_bufRead_of_write rfl,
      List.append_assoc]
  | payLast hs hi hl =>
    refine .inl ⟨rfl, rfl, nofun, ?_⟩
    rw [received_of_cke rfl, received_of_pay hs, ← hi, map_bufRead_of_write rfl]
    simp
  | ckHi hs hi =>
    refine .inl ⟨rfl, rfl, hp, ?_⟩
    rw [received_of_cke (s := doCkHi b s) hs, received_of_cke hs, doCkHi_ck, setCkHi_hi, hi,
      bufRead_congr (doCkHi_buf s b)]
    simp
  | ckLo hs hi =>
    refine .inl ⟨rfl, rfl, hp, ?_⟩
    rw [received_of_cke (s := doCkLo b s) hs, received_of_cke hs, doCkLo_ck, setCkLo_hi, setCkLo_lo, hi,
      bufRead_congr (doCkLo_buf s b)]
    simp
  | endOk hs hi hb hg hl =>
    refine .inr (frameEnd_of_last hs hi hl (hsum hs) (by simp [hb, hg]) fun _ => ⟨rfl, ?_⟩)
    exact congrArg (ValidatedFrame.mk s.code s.len)
      (List.map_congr_left fun i hi => foPayloadRead_of_fill rfl (List.mem_range.1 hi))
  | endBadsum hs hi hb hg =>
    exact .inr (frameEnd_of_last hs hi (hlen hs).2 (hsum hs) (by simp [hb, hg]) nofun)
  | endBadmark hs hi hb =>
    have he : (doEndBadmark b s).event = .err .badEnd := by
      rw [doEndBadmark, reexamine_raiseFrameError]
      split <;> rfl
    exact .inr (frameEnd_of_last hs hi (hlen hs).2 (hsum hs) (by simp [he, hb]) fun hf => nomatch he.symm.trans hf)

/-! ### Cycles within a frame -/

/-- How many cycles carry a tick. -/
def tickCount (ws : List (BitVec 11)) : Nat := (ws.filter ciwTick).length

theorem tickCount_singleton (w : BitVec 11) : tickCount [w] = if ciwTick w = true then 1 else 0 := by
  cases h : ciwTick w <;> simp [tickCount, h]

theorem tickCount_cons (w : BitVec 11) (ws : List (BitVec 11)) :
    tickCount (w :: ws) = tickCount [w] + tickCount ws := by
  simp [tickCount, ← List.length_append, ← List.filter_append]

theorem presentedBytes_append (ws vs : List (BitVec 11)) :
    presentedBytes (ws ++ vs) = presentedBytes ws ++ presentedBytes vs :=
  List.filterMap_append

theorem presentedBytes_of_valid {w : BitVec 11} (hv : ciwValid w = true) : presentedBytes [w] = [ciwByte w] := by
  simp [presentedBytes, hv]

theorem presentedBytes_of_not_valid {w : BitVec 11} (hv : ciwValid w = false) : presentedBytes [w] = [] := by
  simp [presentedBytes, hv]

/-- Between cycles, in configuration `p`: a frame is under way, the bytes `q` of it have been received, and `n` ticks
were counted since its start marker. -/
structure InFrame (p : Config.Params) (q : Bytes) (n : Nat) (s : State) : Prop where
  inv : s.Inv
  sum : s.sumTracks
  phase : s.phase ≠ .seek
  cfg : s.cfg = p
  received : s.received = q
  timer : s.timer = n

section
variable {p : Config.Params} {q : Bytes} {n : Nat} {w : BitVec 11} {s t : State}

theorem InFrame.timedOut_eq (h : InFrame p q n s) : timedOut s = decide (p.timeout ≤ n) := by
  rw [timedOut, h.cfg, h.timer, decide_eq_true h.phase, Bool.true_and]

/-- The end of a cycle that leaves the frame under way: only the tick counts. -/
theorem inFrame_endCycle {v : State} (hn : n < p.timeout) (hinv : (endCycle (ciwTick w) v).Inv) (hsum : v.sumTracks)
    (hp : v.phase ≠ .seek) (he : v.entered = false) (hc : v.cfg = p) (ht : v.timer = n) :
    InFrame p v.received (n + tickCount [w]) (endCycle (ciwTick w) v) := by
  refine ⟨hinv, hsum, hp, hc, rfl, ?_⟩
  rw [endCycle_timer, nextTimer_of_inFrame _ hp he, hc, ht, tickCount_singleton]
  split <;> omega

/-- Before the deadline a cycle carries the frame on without an event, or its byte ends it. -/
theorem InFrame.cycle (h : InFrame p q n s) (hn : n < p.timeout) (hc : CycleCase w s t) :
    (t.event = .none ∧ InFrame p (q ++ presentedBytes [w]) (n + tickCount [w]) t) ∨
    (ciwValid w = true ∧ FrameEnd p.maxPayload q (ciwByte w) t) := by
  have hinv := cycleCase_inv h.inv hc
  have hstart : abandonIfElapsed (beginCycle s) = beginCycle s :=
    abandonIfElapsed_of_not (beginCycle s) (h.timedOut_eq.trans (decide_eq_false (Nat.not_le.2 hn)))
  obtain ⟨hsinv, hsum, hp, rfl, rfl, ht⟩ := h
  cases hc with
  | noByte hv =>
    rw [hstart] at hinv ⊢
    rw [presentedBytes_of_not_valid hv, List.append_nil]
    exact .inl ⟨rfl, inFrame_endCycle hn hinv hsum hp rfl rfl ht⟩
  | byte hv hb =>
    rw [hstart] at hb
    have hsame := byteStep_sameContext hb
    rcases byteStep_inFrame (s := beginCycle s) hp hsinv.srInv hsum hb with hmore | hend
    · rw [presentedBytes_of_valid hv]
      refine .inl ⟨hmore.event, ?_⟩
      have hsum' := byteStep_sumTracks (s := beginCycle s) hsum hb
      have hin := inFrame_endCycle hn hinv hsum' hmore.phase hmore.entered hsame.cfg (hsame.timer.trans ht)
      rwa [hmore.received] at hin
    · exact .inr ⟨hv, hend.place, hend.event, hend.frame⟩

/-- A start marker in `SEEK` begins a frame, and the tick of its cycle is not counted (R113, R125). -/
theorem inFrame_of_start (hinv : s.Inv) (hp : s.phase = .seek) (hv : ciwValid w = true)
    (hb : ciwByte w = Config.startMarker) (hc : CycleCase w s t) :
    t.event = .none ∧ InFrame s.cfg [Config.startMarker] 0 t := by
  have htinv := cycleCase_inv hinv hc
  cases hc with
  | noByte hno => exact absurd hv (by simp [hno])
  | byte _ h =>
    rw [abandonIfElapsed_of_not (beginCycle s) (timedOut_seek _ hp), hb] at h
    cases (byteTransition_of_byteStep h).symm.trans (byteTransition_seek (beginCycle s) _ hp)
    exact ⟨rfl, htinv, reexamine_sumTracks (s := beginCycle s) _ hp, nofun, rfl, rfl, rfl⟩

/-- Once the deadline has passed the next cycle raises `Timeout`. -/
theorem InFrame.timeout (h : InFrame p q n s) (hn : p.timeout ≤ n) (hc : CycleCase w s t) :
    t.event = .err .timeout :=
  (cycleCase_abandoned (h.timedOut_eq.trans (decide_eq_true hn)) hc).1

end

/-! ### What the end of a frame says about its bytes (R127) -/

theorem Result.event_eq_frame_iff (r : Result FrameError ValidatedFrame) : r.event = .frame ↔ ∃ f, r = .ok f := by
  cases r <;> simp [Result.event]

theorem Result.event_eq_err_iff (r : Result FrameError ValidatedFrame) (e : FrameError) :
    r.event = .err e ↔ r = .err e := by
  cases r <;> simp [Result.event]

theorem Result.event_ne_none (r : Result FrameError ValidatedFrame) : r.event ≠ .none := by
  cases r <;> simp [Result.event]

theorem length_of_validateFrame {m : Nat} {bs : Bytes} {f : ValidatedFrame} (h : validateFrame m bs = .ok f) :
    (byteAt bs 2).toNat ≤ m ∧ bs.length = (byteAt bs 2).toNat + 6 := by
  rw [validateFrame_eq] at h
  simp only [err_check_eq_ok_iff] at h
  omega

section
variable {m : Nat} {q rest : Bytes} {b : Byte} {f : ValidatedFrame} {t : State}

theorem byteAt_append_left {i : Nat} (h : i < q.length) : byteAt (q ++ rest) i = byteAt q i := by
  rw [byteAt, byteAt, List.getD_append _ _ _ _ h]

theorem byteAt_append_right (i : Nat) : byteAt (q ++ rest) (q.length + i) = byteAt rest i := by
  rw [byteAt, byteAt, List.getD_append_right _ _ _ _ (Nat.le_add_right ..), Nat.add_sub_cancel_left]

/-- No frame is ended before its last byte. -/
theorem FrameEnd.rest_eq_nil (h : FrameEnd m q b t) (hok : validateFrame m (q ++ [b] ++ rest) = .ok f) :
    rest = [] := by
  obtain ⟨hmax, hlen⟩ := length_of_validateFrame hok
  rw [List.append_assoc] at hmax hlen
  rcases h.place with ⟨hq, hb⟩ | ⟨hq, -⟩
  · have h2 : byteAt (q ++ ([b] ++ rest)) 2 = b := hq ▸ byteAt_append_right (q := q) 0
    rw [h2] at hmax
    omega
  · rw [byteAt_append_left (by omega)] at hlen
    simp only [List.length_append, List.length_singleton] at hlen
    exact List.length_eq_zero_iff.1 (by omega)

/-- A length byte above the limit right after the code. -/
theorem validateFrame_of_badLength (h0 : byteAt q 0 = Config.startMarker) (hlen : q.length = 2) :
    validateFrame m (q ++ [b]) = .err .lengthMismatch := by
  rw [validateFrame_eq, if_neg, if_pos]
  · simp [hlen]
  · rw [byteAt_append_left (by omega), h0]
    simp

/-- With the header in order and the length right, `validate` tells a bad end marker first (R140). -/
theorem validateFrame_of_complete (h0 : byteAt q 0 = Config.startMarker) (hlen : q.length = (byteAt q 2).toNat + 5)
    (hm : (byteAt q 2).toNat ≤ m) :
    (validateFrame m (q ++ [b]) = .err .badEnd ↔ b ≠ Config.endMarker) ∧
      validateFrame m (q ++ [b]) ≠ .err .lengthMismatch := by
  have hend : byteAt (q ++ [b]) ((q ++ [b]).length - 1) = b := by
    rw [List.length_append, List.length_singleton, Nat.add_sub_cancel]
    exact byteAt_append_right 0
  have h0' : byteAt (q ++ [b]) 0 = Config.startMarker := (byteAt_append_left (by omega)).trans h0
  have h2' : byteAt (q ++ [b]) 2 = byteAt q 2 := byteAt_append_left (by omega)
  rw [validateFrame_eq, hend, h0', h2', if_neg (by simp), if_neg (by simp; omega)]
  split_ifs <;> simp_all

end

/-! ### The reassembler agrees with `validate` (R127) -/

theorem observed_eq_nil_iff (n : Nat) (e : Event) : observed n e = [] ↔ e = .none := by
  simp [observed]

/-- A byte cycle without a tick (R79) as a word. -/
theorem byteWord_fields (b : Byte) :
    ciwRst (byteWord b) = false ∧ ciwTick (byteWord b) = false ∧ ciwValid (byteWord b) = true ∧
      ciwByte (byteWord b) = b := by
  simp [byteWord]

/-- A byte without a tick that raises no event is one more byte of the frame. -/
theorem InFrame.byteWord_silent {p : Config.Params} {q : Bytes} {b : Byte} {s t : State} (h : InFrame p q 0 s)
    (hn : 0 < p.timeout) (ht : exec (decodeCiw (byteWord b)) s = .next t) (hev : t.event = .none) :
    InFrame p (q ++ [b]) 0 t := by
  obtain ⟨hr, htick, hv, hb⟩ := byteWord_fields b
  rcases h.cycle hn (cycleCase_of_exec h.inv hr ht) with ⟨-, hin⟩ | ⟨-, hend⟩
  · rwa [presentedBytes_of_valid hv, hb, tickCount_singleton, htick] at hin
  · exact absurd (hend.event.symm.trans hev) (Result.event_ne_none _)

/-- Bytes fed without ticks and without events are bytes of the frame. -/
theorem InFrame.run_silent {p : Config.Params} {bs q : Bytes} {k : Nat} {s u : State} (h : InFrame p q 0 s)
    (hn : 0 < p.timeout) (hrun : runWords k (bs.map byteWord) s = .next ([], u)) : InFrame p (q ++ bs) 0 u := by
  induction bs generalizing k q s with
  | nil => cases hrun; exact (List.append_nil q).symm ▸ h
  | cons b bs ih =>
    obtain ⟨t, rest, ht, hrest, hnil⟩ := runWords_cons_iff.1 hrun
    obtain ⟨hev, rfl⟩ := List.append_eq_nil_iff.1 hnil.symm
    rw [← List.singleton_append, ← List.append_assoc]
    exact ih (h.byteWord_silent hn ht ((observed_eq_nil_iff ..).1 hev)) hrest

/-- From `SEEK`, a start marker and further bytes that raise no event. -/
theorem inFrame_of_fed {s u : State} {q : Bytes} (hinv : s.Inv) (hp : s.phase = .seek)
    (hq : q.head? = some Config.startMarker) (hrun : runWords 0 (q.map byteWord) s = .next ([], u)) :
    InFrame s.cfg q 0 u := by
  obtain ⟨bs, rfl⟩ := List.head?_eq_some_iff.1 hq
  obtain ⟨t, rest, ht, hrest, hnil⟩ := runWords_cons_iff.1 hrun
  obtain ⟨-, rfl⟩ := List.append_eq_nil_iff.1 hnil.symm
  obtain ⟨hr, -, hv, hb⟩ := byteWord_fields Config.startMarker
  obtain ⟨-, hin⟩ := inFrame_of_start hinv hp hv hb (cycleCase_of_exec hinv hr ht)
  exact hin.run_silent hinv.timeout_pos hrest

/-- Settles O26: the bytes fed are those the registers hold, and the byte that raises the event ends the frame as
`validate` says. -/
theorem reassemblerAgreesWithValidate : Obligations.ReassemblerAgreesWithValidate := by
  intro s u t q b hinv hp hq hrun hexec hev
  have hin := inFrame_of_fed hinv hp hq hrun
  obtain ⟨hr, -, -, hb⟩ := byteWord_fields b
  rw [← decodeCiw_packCiw_byte] at hexec
  have hend : FrameEnd s.cfg.maxPayload q b t := by
    rcases hin.cycle hinv.timeout_pos (cycleCase_of_exec hin.inv hr hexec) with ⟨hno, -⟩ | ⟨-, hend⟩
    · exact absurd hno hev
    · exact hb ▸ hend
  have h0 : byteAt q 0 = Config.startMarker := by
    obtain ⟨bs, rfl⟩ := List.head?_eq_some_iff.1 hq
    rfl
  refine ⟨?_, hend.frame, ?_, ?_⟩
  · rw [hend.event, Result.event_eq_frame_iff]
  · rw [hend.event, Result.event_eq_err_iff]
  · rw [hend.event, Result.event_eq_err_iff, Result.event_eq_err_iff]
    change (_ ↔ q.length = (byteAt (q ++ [b]) 2).toNat + 5 ∧ b ≠ Config.endMarker) ∧ _ ∧
      q.length ≤ (byteAt (q ++ [b]) 2).toNat + 5
    rcases hend.place with ⟨hlen, hmax⟩ | ⟨hlen, hmax⟩
    · rw [validateFrame_of_badLength h0 hlen]
      simp [hlen, hmax]
    · obtain ⟨hbad, hne⟩ := validateFrame_of_complete (b := b) h0 hlen hmax
      rw [byteAt_append_left (by omega), hbad]
      refine ⟨(and_iff_right hlen).symm, iff_of_false hne ?_, hlen.le⟩
      omega

/-! ### The deadline (R128) -/

theorem runWords_concat {ws : List (BitVec 11)} {w : BitVec 11} {n : Nat} {s u t : State} {evs : List (Nat × Event)}
    (h : runWords n ws s = .next (evs, u)) (ht : exec (decodeCiw w) u = .next t) :
    runWords n (ws ++ [w]) s = .next (evs ++ observed (n + ws.length) t.event, t) :=
  runWords_append_iff.2 ⟨u, evs, _, h, runWords_cons_iff.2 ⟨t, [], ht, rfl, (List.append_nil _).symm⟩, rfl⟩

/-- The registers never hold a whole frame: its last byte ends it. -/
theorem received_length_lt {s : State} (hinv : s.srInv) (hp : s.phase ≠ .seek) :
    s.received.length < (byteAt s.received 2).toNat + 6 := by
  obtain ⟨-, -, hpay, -⟩ := hinv
  cases hs : s.phase with
  | seek => exact absurd hs hp
  | hdr =>
    rw [received_of_hdr hs]
    split <;> simp only [List.length_cons, List.length_nil] <;> omega
  | pay =>
    have h2 : byteAt s.received 2 = s.len := by rw [received_of_pay hs]; rfl
    have hlen : s.received.length = s.idx.toNat + 3 := by simp [received_of_pay hs]
    obtain ⟨-, -, hidx⟩ := hpay hs
    rw [h2, hlen]
    omega
  | cke =>
    have h2 : byteAt s.received 2 = s.len := by rw [received_of_cke hs]; rfl
    have hlen : s.received.length = s.len.toNat + 3 + min s.idx.toNat 2 := by
      simp [received_of_cke hs, Nat.add_right_comm]
    rw [h2, hlen]
    omega

section
variable {p : Config.Params} {q rest : Bytes} {n : Nat} {s : State} {f : ValidatedFrame}

/-- Before the deadline a cycle that presents at most bytes of a good frame, but not its last, raises no event. -/
theorem InFrame.cycle_good {w : BitVec 11} (h : InFrame p q n s) (hr : ciwRst w = false) (hn : n < p.timeout)
    (hok : validateFrame p.maxPayload (q ++ presentedBytes [w] ++ rest) = .ok f) (hrest : rest ≠ []) :
    ∃ t, exec (decodeCiw w) s = .next t ∧ t.event = .none ∧
      InFrame p (q ++ presentedBytes [w]) (n + tickCount [w]) t := by
  obtain ⟨t, hc⟩ := exists_cycleCase w h.inv
  refine ⟨t, exec_of_cycleCase h.inv.legal hr hc, ?_⟩
  rcases h.cycle hn hc with hmore | ⟨hv, hend⟩
  · exact hmore
  · rw [presentedBytes_of_valid hv] at hok
    exact absurd (hend.rest_eq_nil hok) hrest

/-- Before the deadline the last byte of a good frame emits it. -/
theorem InFrame.cycle_last {w : BitVec 11} (h : InFrame p q n s) (hr : ciwRst w = false) (hv : ciwValid w = true)
    (hn : n < p.timeout) (hok : validateFrame p.maxPayload (q ++ [ciwByte w]) = .ok f) :
    ∃ t, exec (decodeCiw w) s = .next t ∧ t.event = .frame ∧ foFrame t = f := by
  obtain ⟨t, hc⟩ := exists_cycleCase w h.inv
  refine ⟨t, exec_of_cycleCase h.inv.legal hr hc, ?_⟩
  rcases h.cycle hn hc with ⟨-, hmore⟩ | ⟨-, hend⟩
  · have hlt := received_length_lt hmore.inv.srInv hmore.phase
    rw [hmore.received, presentedBytes_of_valid hv] at hlt
    exact absurd (length_of_validateFrame hok).2 hlt.ne
  · exact ⟨by rw [hend.event, hok]; rfl, (hend.frame f hok).2⟩

/-- Before the deadline cycles that present bytes of a good frame, but not its last, raise no event. -/
theorem InFrame.run_good {ws : List (BitVec 11)} {k : Nat} (h : InFrame p q n s) (hr : ∀ w ∈ ws, ciwRst w = false)
    (hn : n + tickCount ws < p.timeout)
    (hok : validateFrame p.maxPayload (q ++ presentedBytes ws ++ rest) = .ok f) (hrest : rest ≠ []) :
    ∃ u, runWords k ws s = .next ([], u) ∧ InFrame p (q ++ presentedBytes ws) (n + tickCount ws) u := by
  induction ws generalizing k q n s with
  | nil => exact ⟨s, rfl, (List.append_nil q).symm ▸ h⟩
  | cons w ws ih =>
    rw [List.forall_mem_cons] at hr
    rw [tickCount_cons, ← Nat.add_assoc] at hn ⊢
    rw [← List.singleton_append, presentedBytes_append, ← List.append_assoc] at hok ⊢
    obtain ⟨t, ht, hev, hin⟩ := h.cycle_good (rest := presentedBytes ws ++ rest) hr.1 (by omega)
      (by rwa [← List.append_assoc]) (List.append_ne_nil_of_right_ne_nil _ hrest)
    obtain ⟨u, hu, hin'⟩ := ih (k := k + 1) hin hr.2 hn hok
    exact ⟨u, runWords_cons_iff.2 ⟨t, [], ht, hu, by rw [hev]; rfl⟩, hin'⟩

end

/-- From `SEEK`, a start marker and cycles that present bytes of a good frame, but not its last. -/
theorem inFrame_of_run {s : State} {w0 : BitVec 11} {ws : List (BitVec 11)} {rest : Bytes} {f : ValidatedFrame}
    (hinv : s.Inv) (hp : s.phase = .seek) (hr0 : ciwRst w0 = false) (hv0 : ciwValid w0 = true)
    (hb0 : ciwByte w0 = Config.startMarker) (hr : ∀ w ∈ ws, ciwRst w = false) (hn : tickCount ws < s.cfg.timeout)
    (hok : validateFrame s.cfg.maxPayload ([Config.startMarker] ++ presentedBytes ws ++ rest) = .ok f)
    (hrest : rest ≠ []) :
    ∃ u, runWords 0 ([w0] ++ ws) s = .next ([], u) ∧
      InFrame s.cfg ([Config.startMarker] ++ presentedBytes ws) (tickCount ws) u := by
  obtain ⟨t, hc⟩ := exists_cycleCase w0 hinv
  obtain ⟨hev, hin⟩ := inFrame_of_start hinv hp hv0 hb0 hc
  obtain ⟨u, hu, hin'⟩ := hin.run_good (k := 0 + 1) hr (by omega) hok hrest
  rw [Nat.zero_add] at hin'
  exact ⟨u, runWords_cons_iff.2 ⟨t, [], exec_of_cycleCase hinv.legal hr0 hc, hu, by rw [hev]; rfl⟩, hin'⟩

/-- Settles O27: up to the last byte, or the last tick, the frame stays under way; then the byte emits it, or the next
cycle finds the timeout elapsed. -/
theorem deadlineDecidesTheFrame : Obligations.DeadlineDecidesTheFrame := by
  intro s c p w0 ws hinv hp hlen hr0 hv0 hb0 hr hn
  have hok : validateFrame s.cfg.maxPayload (frameOf c p) = .ok ⟨c, BitVec.ofNat 8 p.length, p⟩ :=
    validateFrame_frameOf c (length_toNat_of_legal hinv.legal hlen) hlen
  refine ⟨fun w1 hr1 hv1 hb1 hbytes => ?emitted, fun w w1 hrw hr1 htick htimeout ⟨rest, hrest, hbytes⟩ => ?abandoned⟩
  case emitted =>
    rw [← hbytes] at hok
    obtain ⟨u, hu, hin⟩ := inFrame_of_run hinv hp hr0 hv0 hb0 hr hn hok (by simp)
    obtain ⟨t, ht, hev, hframe⟩ := hin.cycle_last hr1 hv1 hn (hb1 ▸ hok)
    refine ⟨t, (runWords_concat hu ht).trans ?_, hframe⟩
    simp [hev, observed]
  case abandoned =>
    rw [← hbytes, presentedBytes_append, ← List.append_assoc] at hok
    obtain ⟨u, hu, hin⟩ := inFrame_of_run (rest := presentedBytes [w] ++ rest) hinv hp hr0 hv0 hb0 hr hn
      (by rwa [← List.append_assoc]) (List.append_ne_nil_of_right_ne_nil _ hrest)
    obtain ⟨v, hv, hev, hin'⟩ := hin.cycle_good hrw hn hok hrest
    obtain ⟨t, hc⟩ := exists_cycleCase w1 hin'.inv
    have hdue : s.cfg.timeout ≤ tickCount ws + tickCount [w] := by
      rw [tickCount_singleton, if_pos htick]
      exact htimeout.ge
    have hrun := runWords_concat (runWords_concat hu hv) (exec_of_cycleCase hin'.inv.legal hr1 hc)
    rw [List.append_assoc] at hrun
    refine ⟨t, hrun.trans ?_⟩
    simp [hev, hin'.timeout hdue hc, observed]

end Machine

end Sys2Proof
end

