-- ==== Sys2Proof/Proofs/Exceptions.lean ====
section
/-! PROOFS. The family `60_exceptions.md`: where a FrameError leaves the SR (R136, R141). A cycle has two sources of an
error, the abandonment of step 3 and the byte of step 4; both meet `ReadyAfterError`. -/

namespace Sys2Proof.Machine

/-- Byte `b` led from `s` to a state ready for the next frame: in `SEEK`, or in the frame `b` began, with the other
registers of the failed frame kept (R136, R141). -/
structure ReadyAfterError (b : Byte) (s t : State) : Prop where
  idx : t.idx = 0
  phase : (t.phase = .seek ∧ t.sum = s.sum) ∨ (t.phase = .hdr ∧ b = Config.startMarker)
  code : t.code = s.code
  len : t.len = s.len
  ck : t.ck = s.ck
  buf : t.buf = s.buf

theorem raiseFrameError_readyAfterError (e : FrameError) (b : Byte) (s : State) :
    ReadyAfterError b s (raiseFrameError e s) :=
  ⟨rfl, .inl ⟨rfl, rfl⟩, rfl, rfl, rfl, rfl⟩

theorem doSeekJunk_readyAfterError (b : Byte) {s : State} (hp : s.phase = .seek) (hi : s.idx = 0) :
    ReadyAfterError b s (doSeekJunk s) :=
  ⟨hi, .inl ⟨hp, rfl⟩, rfl, rfl, rfl, rfl⟩

/-- The byte that is read again after an error begins a frame or is junk. -/
theorem reexamine_raiseFrameError_readyAfterError (e : FrameError) (b : Byte) (s : State) :
    ReadyAfterError b s (reexamine b (raiseFrameError e s)) := by
  rcases reexamine_cases b (raiseFrameError e s) with ⟨hb, h⟩ | ⟨-, h⟩ <;> rw [h]
  · exact ⟨rfl, .inr ⟨rfl, hb⟩, rfl, rfl, rfl, rfl⟩
  · exact { doSeekJunk_readyAfterError b (s := raiseFrameError e s) rfl rfl with }

/-- A byte before which the cycle has no event yet, and which raises an error. -/
theorem byteStep_readyAfterError {b : Byte} {s t : State} {e : FrameError} (h : ByteStep b s t)
    (hseek : s.phase = .seek → s.idx = 0) (hnone : s.event = .none) (he : t.event = .err e) :
    ReadyAfterError b s t := by
  cases h with
  | seek hp =>
    rcases reexamine_cases b s with ⟨-, h⟩ | ⟨-, h⟩ <;> rw [h] at he ⊢
    · exact nomatch hnone.symm.trans he
    · exact doSeekJunk_readyAfterError b hp (hseek hp)
  | hdrLenBad | endBadmark => exact reexamine_raiseFrameError_readyAfterError _ b s
  | endBadsum => exact raiseFrameError_readyAfterError _ b s
  | endOk => exact nomatch he
  | hdrCode | hdrLenOk | payByte | payLast | ckHi | ckLo => exact nomatch hnone.symm.trans he

/-- The two sources of an error in a byte cycle: the elapsed timeout, after which the byte is read in `SEEK`, and the
byte's own transition. -/
theorem cycByte_readyAfterError {s t : State} {tick : Bool} {b : Byte} {e : FrameError} (hinv : s.Inv)
    (h : exec (.cycByte tick b) s = .next t) (he : t.event = .err e) : ReadyAfterError b s t := by
  rcases cycByte_cases s t tick b h with ⟨-, rfl⟩ | ⟨-, v, hv, rfl⟩
  · exact { reexamine_raiseFrameError_readyAfterError .timeout b (beginCycle s) with }
  · have hstep : ByteStep b (beginCycle s) v := byteStep_of_byteTransition (.inl hinv.srInv) hv
    exact { byteStep_readyAfterError hstep (beginCycle_midInv hinv).seek rfl he with }

/-- Settles O22: the registers by `ReadyAfterError`; `quiet` and `frame_out` follow the event in every cycle (R23,
R24). -/
theorem errorEventLeavesTheFrameRegisters : Obligations.ErrorEventLeavesTheFrameRegisters := by
  intro s t tick b e hinv h he
  obtain ⟨hidx, hphase, hcode, hlen, hck, hbuf⟩ := cycByte_readyAfterError hinv h he
  obtain ⟨-, hquiet, -⟩ := quietFollowsTheEvents (.cycByte tick b) s t rfl h
  obtain ⟨hfoPayload, hfo⟩ := frameOutChangesOnlyWithAFrame (.cycByte tick b) s t h (he ▸ nofun)
  obtain ⟨hfoValid, hfoCode, hfoLen⟩ := hfo nofun
  exact ⟨hquiet e he, hidx, hphase, hcode, hlen, hck, hbuf, hfoValid, hfoCode, hfoLen, hfoPayload⟩

end Sys2Proof.Machine
end

