-- ==== Sys2Proof/Proofs/Selection.lean ====
section
/-! PROOFS. The operations that happen inside a cycle, run where the state does not select them (assumption log 1): the
byte transitions by the TSW (R112), TIMEOUT_ABANDON by its own condition (R111). -/

namespace Sys2Proof.Machine

/-- The converse of `whenSelected_of_selected`: where byte `b` does not select `i`, the effect `r` is not reached. -/
theorem whenSelected_of_not_selected {i : Instr} {b : Byte} {s : State} (r : StepResult) (hl : s.cfg.legal = true)
    (hs : selectTransition s b ≠ .ok i) : whenSelected i b s r = .refused .notSelected := by
  rw [whenSelected, withLegalConfig_of_legal s _ hl]
  split
  · rename_i j hj
    exact if_neg fun (hji : j = i) => hs (hji ▸ hj)
  · rfl

/-- Each byte transition stands behind the check that its byte selects it. -/
theorem exec_tsw_eq_whenSelected {i : Instr} (s : State) (hf : i.format = .tsw) :
    ∃ b r, exec i s = whenSelected i b s r := by
  cases i with
  | seekStart | seekJunk | hdrCode | hdrLenBad | hdrLenOk | payByte | payLast | ckHi | ckLo | endOk | endBadsum
  | endBadmark => exact ⟨_, _, rfl⟩
  | _ => exact nomatch hf

theorem exec_timeoutAbandon_of_not_timedOut {s : State} (hl : s.cfg.legal = true) (ht : timedOut s = false) :
    exec .timeoutAbandon s = .refused .notSelected := by
  rw [exec, execTimeoutAbandon, withLegalConfig_of_legal s _ hl, ht]
  rfl

/-- Settles O21: a byte transition is refused by the guard `whenSelected`, TIMEOUT_ABANDON by the condition of R111. -/
theorem unselectedTransitionIsRefused : Obligations.UnselectedTransitionIsRefused := by
  refine ⟨fun s i hl hf hs => ?_, fun s hl h => ?_⟩
  · obtain ⟨b, r, hexec⟩ := exec_tsw_eq_whenSelected s hf
    exact hexec.trans (whenSelected_of_not_selected r hl (hs b))
  · exact exec_timeoutAbandon_of_not_timedOut hl (timedOut_eq_false_of_seek_or h)

end Sys2Proof.Machine
end
